-- ==== Sys2Proof/Word.lean ====
section
/-! DEFINITION. The machine's data types: the 32-bit word, the byte of the I/O streams, the register index. -/

namespace Sys2Proof

/-- A word: "an unsigned 32-bit integer, the machine's sole data unit" (00_scope.md R11, R17). -/
abbrev Word := BitVec 32

/-- A byte of the input or output stream, 0-255 (44_io.md R162, R163). -/
abbrev Byte := BitVec 8

/-- A register index: the 3-bit field is the index itself, 0-7 (10_state.md R20; 30_encoding.md R77). -/
abbrev RegIdx := Fin 8

end Sys2Proof
end

