-- ==== Sys2Proof/Config.lean ====
section
/-! DEFINITION. What an implementation fixes (00_scope.md R9; 10_state.md R32). -/

namespace Sys2Proof.Config

/-- `REJECT_RESERVED_BITS` (00_scope.md R9; 30_encoding.md R81), at the spec's default. Every function that
depends on it takes it as an argument, so the other setting is modelled too; this is the value `step` uses
(log entry 5). -/
def rejectReservedBits : Bool := false

/-- How many segment identifiers there are: ids are 32 bits wide (00_scope.md R9; 20_memory.md R44). -/
def idSpace : Nat := 2 ^ 32

end Sys2Proof.Config
end

