-- ==== Sys2Proof/Machine/State.lean ====
section
/-! DEFINITION. The machine's state as plain data (10_state.md R20-R33), the reasons a step can stop, and the
state after reset. -/

namespace Sys2Proof.Machine

/-- The fault causes of 60_exceptions.md R181. Raising one is a NEXT state, `run = .faulted cause`
(40_execution_cycle.md R107, R111), not a stop of the model (log entry 3). -/
inductive Cause where
  /-- Code 1: dispatch, on an Invalid word. -/
  | malformedProgram
  /-- Code 2: SLOAD, SSTORE, UNMAP, LOADP. -/
  | invalidSegment
  /-- Code 3: fetch, SLOAD, SSTORE. -/
  | outOfBounds
  /-- Code 4: DIV. -/
  | divisionByZero
  /-- Code 5: OUT. -/
  | outputRangeViolation
  /-- Code 6: MAP. -/
  | resourceExhausted
  deriving DecidableEq, Repr

/-- The run state of 10_state.md R24. -/
inductive RunState where
  /-- The engine fetches and executes. -/
  | running
  /-- The terminal state reached only by HALT. -/
  | halted
  /-- The terminal state a fault reaches. -/
  | faulted (cause : Cause)
  deriving DecidableEq, Repr

/-- A live segment: its length in words, fixed when it is made, and its nonzero words as (index, word) pairs,
indices strictly rising (20_memory.md R41, R44: "zero-filled", so an index not listed reads 0; log entry 8). -/
structure Segment where
  /-- The segment's length in words. -/
  len : Nat
  /-- The nonzero words, by index. -/
  cells : List (Nat × Word)
  deriving DecidableEq, Repr

/-- A slot: "either holding a live Segment or being empty (unmapped)" (20_memory.md R41). -/
inductive Slot where
  /-- `Live(words)`. -/
  | live (seg : Segment)
  /-- `Empty`. -/
  | empty
  deriving DecidableEq, Repr

/-- The segment memory's state (10_state.md R29): the slots, whose indices are the segment identifiers, and the
queue of freed identifiers, oldest first (20_memory.md R41, R42). -/
structure Memory where
  /-- The slots; a slot's identifier is its place in the list. -/
  slots : List Slot
  /-- The free-id queue, front first. -/
  freeq : List Word
  deriving DecidableEq, Repr

/-- The lengths from `lo` to `hi`, both included: how the model writes down a set of lengths an allocation cannot
have (log entry 4). -/
structure LengthRange where
  /-- The first length. -/
  lo : Word
  /-- The last length. -/
  hi : Word
  deriving DecidableEq, Repr

/-- The whole state: everything 10_state.md R33 lists, and `memLimits`, which is the model's own. -/
structure State where
  /-- `x[0]`..`x[7]` (10_state.md R20). -/
  regs : Vector Word 8
  /-- The program counter, a word index into segment 0 (10_state.md R23). -/
  pc : Word
  /-- The run state (10_state.md R24). -/
  run : RunState
  /-- The segment memory (10_state.md R29). -/
  mem : Memory
  /-- The bytes emitted so far, first one first (10_state.md R30; 44_io.md R162). -/
  outq : List Byte
  /-- The input bytes the port has still to give, next one first (10_state.md R30; 44_io.md R163). -/
  inq : List Byte
  /-- The end-of-stream mark: the host has closed the input (10_state.md R30; 44_io.md R164). -/
  inClosed : Bool
  /-- The MODEL's own field, by which `step` is given the parameter MEM_CAPACITY (00_scope.md R9; 10_state.md R32):
  for each coming ALLOC request in turn, the lengths it cannot be given. The last entry stands for every request
  after it too; with no entry at all every length can be given (log entry 4). -/
  memLimits : List (List LengthRange)
  deriving DecidableEq, Repr

/-- Why the model takes no step: the two terminal run states of 10_state.md R24, from which "there is no step"
(40_execution_cycle.md R100). No instruction answers one of these (log entry 2). -/
inductive Fault where
  /-- Raised by `step` alone, when the run state is Halted. Safe: the model stops where the block takes no step. -/
  | halted
  /-- Raised by `step` alone, when the run state is Faulted with this cause. Safe: as above. -/
  | faulted (cause : Cause)
  deriving DecidableEq, Repr

/-- Why the model gives no meaning. -/
inductive Refusal where
  /-- An instruction whose arm of `exec` has no meaning yet, by its mnemonic; no arm raises it. Safe. -/
  | notModelled (mnemonic : String)
  deriving DecidableEq, Repr

/-- What a step or a meaning answers. -/
abbrev StepResult := Host.Outcome State Fault Refusal

/-- The state after reset (10_state.md R33; 70_reset_and_hazards.md R200), with nothing loaded and no input: the
image is empty (R202; log entry 7) and the input stream is empty and closed (log entry 6). `State.boot` is the
same for any image and any input stream. -/
def State.reset : State where
  regs := Vector.replicate 8 0#32
  pc := 0#32
  run := .running
  mem := { slots := [.live { len := 0, cells := [] }], freeq := [] }
  outq := []
  inq := []
  inClosed := true
  memLimits := []

end Sys2Proof.Machine
end

