-- ==== Sys2Proof/Machine/Memory.lean ====
section
/-! DEFINITION. The segment memory's interface contract, 20_memory.md R41-R50: reading, writing, allocating,
freeing, and replacing segment 0. An operation that faults answers the cause and no memory, so it has changed
nothing (40_execution_cycle.md R107). -/

namespace Sys2Proof.Machine

/-- The word listed at an index, 0 where none is listed. -/
def lookupCell : List (Nat × Word) → Nat → Word
  | [], _ => 0#32
  | (j, v) :: rest, i => if j = i then v else lookupCell rest i

/-- Puts a word at an index, keeping the indices rising and listing no zero word. -/
def storeCell : List (Nat × Word) → Nat → Word → List (Nat × Word)
  | [], i, v => if v = 0#32 then [] else [(i, v)]
  | (j, u) :: rest, i, v =>
    if i < j then (if v = 0#32 then (j, u) :: rest else (i, v) :: (j, u) :: rest)
    else if i = j then (if v = 0#32 then rest else (i, v) :: rest)
    else (j, u) :: storeCell rest i v

/-- The canonical form of a segment's cells: every index at least `lo` and below `len`, rising strictly, no zero
word listed. -/
def cellsWf (len : Nat) : Nat → List (Nat × Word) → Bool
  | _, [] => true
  | lo, (i, v) :: rest => decide (lo ≤ i) && decide (i < len) && decide (v ≠ 0#32) && cellsWf len (i + 1) rest

/-- Lists the nonzero words of a list of words whose first has index `k`. -/
def cellsFrom : Nat → List Word → List (Nat × Word)
  | _, [] => []
  | k, w :: ws => if w = 0#32 then cellsFrom (k + 1) ws else (k, w) :: cellsFrom (k + 1) ws

/-- `slots[s].words[i]`. -/
def Segment.get (g : Segment) (i : Nat) : Word := lookupCell g.cells i

/-- `slots[s].words[i] <- v`. -/
def Segment.put (g : Segment) (i : Nat) (v : Word) : Segment := { g with cells := storeCell g.cells i v }

/-- `zeros(n)` (20_memory.md R44). -/
def Segment.zeros (n : Nat) : Segment := { len := n, cells := [] }

/-- The segment that holds a given sequence of words. -/
def Segment.ofWords (ws : List Word) : Segment := { len := ws.length, cells := cellsFrom 0 ws }

/-- The sequence of words a segment holds. -/
def Segment.words (g : Segment) : List Word := (List.range g.len).map g.get

/-- A segment is in canonical form. -/
def Segment.wf (g : Segment) : Bool := cellsWf g.len 0 g.cells

/-- A slot's segment, where it has one, is in canonical form. -/
def Slot.wf : Slot → Bool
  | .live g => g.wf
  | .empty => true

/-- Every live segment is in canonical form, so equal memories are equal data. -/
def Memory.wf (m : Memory) : Bool := m.slots.all Slot.wf

/-- The live segment an identifier names. An identifier past the last slot "names no slot and is treated like an
Empty slot by every operation" (20_memory.md R41). -/
def Memory.live? (m : Memory) (s : Word) : Option Segment :=
  match m.slots[s.toNat]? with
  | some (.live g) => some g
  | some .empty => none
  | none => none

/-- `MemRead((s, i), 1)` (20_memory.md R46): liveness first, then bounds. -/
def Memory.read (m : Memory) (s i : Word) : Except Cause Word :=
  match m.live? s with
  | none => .error .invalidSegment
  | some g => if g.len ≤ i.toNat then .error .outOfBounds else .ok (g.get i.toNat)

/-- `MemWrite((s, i), 1, v)` (20_memory.md R47). It never extends a segment, segment 0 included
(90_conflicts.md C5). -/
def Memory.write (m : Memory) (s i v : Word) : Except Cause Memory :=
  match m.live? s with
  | none => .error .invalidSegment
  | some g =>
    if g.len ≤ i.toNat then .error .outOfBounds
    else .ok { m with slots := m.slots.set s.toNat (.live (g.put i.toNat v)) }

/-- `SegAlloc(n)` past its MEM_CAPACITY check (20_memory.md R44): the oldest freed identifier where there is one,
else a new slot at the end where an identifier is left. -/
def Memory.alloc (m : Memory) (n : Word) : Except Cause (Word × Memory) :=
  match m.freeq with
  | s :: rest => .ok (s, { slots := m.slots.set s.toNat (.live (.zeros n.toNat)), freeq := rest })
  | [] =>
    if Config.idSpace ≤ m.slots.length then .error .resourceExhausted
    else .ok (BitVec.ofNat 32 m.slots.length, { m with slots := m.slots ++ [.live (.zeros n.toNat)] })

/-- `SegFree(s)` (20_memory.md R45): freeing segment 0 faults (90_conflicts.md C2). -/
def Memory.free (m : Memory) (s : Word) : Except Cause Memory :=
  if s = 0#32 then .error .invalidSegment
  else match m.live? s with
    | none => .error .invalidSegment
    | some _ => .ok { slots := m.slots.set s.toNat .empty, freeq := m.freeq ++ [s] }

/-- `SegLoad0(s)` (20_memory.md R48): slot 0 gets a copy of segment `s`; for `s = 0` nothing happens. -/
def Memory.load0 (m : Memory) (s : Word) : Except Cause Memory :=
  if s = 0#32 then .ok m
  else match m.live? s with
    | none => .error .invalidSegment
    | some g => .ok { m with slots := m.slots.set 0 (.live g) }

/-- The external loader's capability, which no instruction has (20_memory.md R47): a word put at an index of
segment 0, the segment extended to hold it. The spec does not say what a load past R9's maximum of 2^32 - 1 words
does: DESIGN CHOICE, at index 2^32 - 1 (pc = 0xFFFFFFFF) the segment becomes 2^32 words long, outside `Memory.Inv`,
so that the word is there to be fetched (log entry 7). -/
def Memory.loaderPut (m : Memory) (i : Nat) (v : Word) : Memory :=
  let g := (m.live? 0#32).getD (.zeros 0)
  let slot := Slot.live ({ g with len := max g.len (i + 1) }.put i v)
  { m with slots := if m.slots.isEmpty then [slot] else m.slots.set 0 slot }

end Sys2Proof.Machine
end

