-- ==== Sys2Proof/Machine/Ops.lean ====
section
/-! DEFINITION. The named operations every meaning is written over: registers, the program counter, taking a
fault, memory requests, the I/O ports. -/

namespace Sys2Proof.Machine

/-- `x[i]` (00_scope.md R13). No register is hard-wired (10_state.md R20). -/
def State.readReg (s : State) (i : RegIdx) : Word := s.regs[i]

/-- `x[i] <- v` (00_scope.md R13). -/
def State.writeReg (s : State) (i : RegIdx) (v : Word) : State := { s with regs := s.regs.set i v }

/-- `pc <- target`: an absolute word index (40_execution_cycle.md R106). -/
def State.jump (s : State) (target : Word) : State := { s with pc := target }

/-- `pc <- (pc + 1) mod 2^32` (40_execution_cycle.md R106). -/
def State.advance (s : State) : State := s.jump (BitVec.ofNat 32 (s.pc.toNat + 1))

/-- The run state changed, nothing else. -/
def State.setRun (s : State) (r : RunState) : State := { s with run := r }

/-- TAKING A FAULT, `raise Fault(f)` (00_scope.md R15; 40_execution_cycle.md R106, R107, R111): the run state
becomes Faulted with the cause and nothing else changes; pc stays at the faulting instruction (60_exceptions.md
R182). No handler is entered and no state is saved (R180), and there is no return from a fault: Faulted is final
(R186). -/
def raise (cause : Cause) (s : State) : StepResult := .next (s.setRun (.faulted cause))

/-- `halt` (00_scope.md R15): the run state becomes Halted and pc stays (40_execution_cycle.md R106). -/
def halt (s : State) : StepResult := .next (s.setRun .halted)

/-- An instruction completes with its writes done, and pc goes on to the next word (40_execution_cycle.md R106). -/
def retire (s : State) : StepResult := .next s.advance

/-- The segment memory changed, nothing else. -/
def State.setMem (s : State) (m : Memory) : State := { s with mem := m }

/-- A length lies in a range. -/
def LengthRange.covers (r : LengthRange) (n : Word) : Bool :=
  decide (r.lo.toNat ≤ n.toNat) && decide (n.toNat ≤ r.hi.toNat)

/-- `MEM_CAPACITY(n)` as the state's own field says it: "whether an allocation of n words can be satisfied now"
(00_scope.md R9; log entry 4). -/
def State.memCapacity (s : State) (n : Word) : Bool := !(s.memLimits.headD []).any (·.covers n)

/-- What a granted request leaves of the limits: the next entry comes up, and the last one stands (log entry 4). -/
def limitsAfterGrant : List (List LengthRange) → List (List LengthRange)
  | [] => []
  | [standing] => [standing]
  | _ :: next :: rest => next :: rest

/-- The READ request (20_memory.md R62). -/
def State.memRead (s : State) (seg i : Word) : Except Cause Word := s.mem.read seg i

/-- The WRITE request (20_memory.md R62). -/
def State.memWrite (s : State) (seg i v : Word) : Except Cause State :=
  match s.mem.write seg i v with
  | .error cause => .error cause
  | .ok m => .ok (s.setMem m)

/-- The ALLOC request (20_memory.md R44, R62), with the predicate MEM_CAPACITY as its argument (00_scope.md R9): the
capacity check, then the identifier. Only a granted request moves the model's own limits on (log entry 4). -/
def State.segAlloc (s : State) (cap : Word → Bool) (n : Word) : Except Cause (Word × State) :=
  if cap n = false then .error .resourceExhausted
  else match s.mem.alloc n with
    | .error cause => .error cause
    | .ok (id, m) => .ok (id, { s with mem := m, memLimits := limitsAfterGrant s.memLimits })

/-- The FREE request (20_memory.md R45, R62). -/
def State.segFree (s : State) (seg : Word) : Except Cause State :=
  match s.mem.free seg with
  | .error cause => .error cause
  | .ok m => .ok (s.setMem m)

/-- The LOAD0 request (20_memory.md R48, R62). -/
def State.segLoad0 (s : State) (seg : Word) : Except Cause State :=
  match s.mem.load0 seg with
  | .error cause => .error cause
  | .ok m => .ok (s.setMem m)

/-- The fetch, `MemRead((0, pc), 1)` (40_execution_cycle.md R101): segment 0 as it is at this step. -/
def State.fetch (s : State) : Except Cause Word := s.memRead 0#32 s.pc

/-- `OutByte(b)` (00_scope.md R15; 44_io.md R162). -/
def State.outByte (s : State) (b : Byte) : State := { s with outq := s.outq ++ [b] }

/-- What the input port offers at a moment: "the next byte, end of stream, or nothing yet" (44_io.md R163). -/
inductive Offer where
  /-- The next byte. -/
  | byte (b : Byte)
  /-- End of stream. -/
  | eof
  /-- Nothing yet. -/
  | nothing
  deriving DecidableEq, Repr

/-- What the port offers now (44_io.md R163, R164). -/
def State.offer (s : State) : Offer :=
  match s.inq, s.inClosed with
  | b :: _, _ => .byte b
  | [], true => .eof
  | [], false => .nothing

/-- The offered byte is taken from the stream (44_io.md R161); at end of stream there is none to take. -/
def State.takeInput (s : State) : State := { s with inq := s.inq.tail }

end Sys2Proof.Machine
end

