-- ==== Sys2Proof/Machine/Boot.lean ====
section
/-! DEFINITION. The environment's side: the program loader's result, reset with a program and an input stream, and
what the host may do to the input port between steps. -/

namespace Sys2Proof.Machine

/-- A word of the program file: `b0 :: b1 :: b2 :: b3`, big-endian (20_memory.md R51; 70_reset_and_hazards.md
R201). -/
def packWord (b0 b1 b2 b3 : Byte) : Word :=
  BitVec.ofNat 32 (b0.toNat * 2 ^ 24 + b1.toNat * 2 ^ 16 + b2.toNat * 2 ^ 8 + b3.toNat)

/-- The program image of a file's bytes. A file whose length is no multiple of 4 is rejected by the loader, with
MalformedProgram, and the block never starts (70_reset_and_hazards.md R201). -/
def imageOfBytes : List Byte → Except Cause (List Word)
  | [] => .ok []
  | b0 :: b1 :: b2 :: b3 :: rest => (imageOfBytes rest).map (packWord b0 b1 b2 b3 :: ·)
  | [_] => .error .malformedProgram
  | [_, _] => .error .malformedProgram
  | [_, _, _] => .error .malformedProgram

/-- Reset with the program image `image` loaded, the input stream `input`, closed or still open, and the memory's
limits (10_state.md R33; 70_reset_and_hazards.md R200, R203). -/
def State.boot (image : List Word) (input : List Byte) (closed : Bool) (limits : List (List LengthRange)) : State :=
  { State.reset with
    mem := { slots := [.live (.ofWords image)], freeq := [] }
    inq := input
    inClosed := closed
    memLimits := limits }

/-- A word put at (segment 0, pc) by the loader, and the block running: the very next step fetches it
(log entry 7). -/
def State.loadAtPc (s : State) (w : Word) : State :=
  { s with run := .running, mem := s.mem.loaderPut s.pc.toNat w }

/-- What the host may do to the input port (44_io.md R163-R165). -/
inductive HostEvent where
  /-- The host supplies the next byte of its stream. -/
  | supply (b : Byte)
  /-- The host closes the input. -/
  | close
  deriving DecidableEq, Repr

/-- The input port after the host acts. Once closed it "never offers a byte again" (44_io.md R164), so a byte
supplied after that is dropped (log entry 11). -/
def State.host (s : State) : HostEvent → State
  | .supply b => if s.inClosed then s else { s with inq := s.inq ++ [b] }
  | .close => { s with inClosed := true }

end Sys2Proof.Machine
end

