-- ==== Sys2Proof/Syntax.lean ====
section
/-! DEFINITION. The abstract syntax: one constructor per row of spec/opcode_table.json, with the fields that
instruction uses (30_encoding.md R79) and no others, and the assembler's text of each (R86). -/

namespace Sys2Proof

/-- The fourteen instructions (30_encoding.md R78), in the table's order. -/
inductive Instr where
  /-- CMOV rA, rB, rC (R120). -/
  | cmov (a b c : RegIdx)
  /-- SLOAD rA, rB, rC (R121). -/
  | sload (a b c : RegIdx)
  /-- SSTORE rA, rB, rC (R122). -/
  | sstore (a b c : RegIdx)
  /-- ADD rA, rB, rC (R130). -/
  | add (a b c : RegIdx)
  /-- MUL rA, rB, rC (R131). -/
  | mul (a b c : RegIdx)
  /-- DIV rA, rB, rC (R132). -/
  | div (a b c : RegIdx)
  /-- NAND rA, rB, rC (R133). -/
  | nand (a b c : RegIdx)
  /-- HALT (R150). -/
  | halt
  /-- MAP rB, rC (R151). -/
  | map (b c : RegIdx)
  /-- UNMAP rC (R152). -/
  | unmap (c : RegIdx)
  /-- OUT rC (R160). -/
  | out (c : RegIdx)
  /-- IN rC (R161). -/
  | inp (c : RegIdx)
  /-- LOADP rB, rC (R170). -/
  | loadp (b c : RegIdx)
  /-- LOADV rA', imm (R171). The immediate is the number the assembler reads (R86); that it fits its 25-bit
  field is `Instr.wellFormed`'s check (R84; log entry 9). -/
  | loadv (a : RegIdx) (imm : Nat)
  deriving DecidableEq, Repr

/-- The mnemonic, as spec/opcode_table.json spells it (00_scope.md R18). -/
def Instr.mnemonic : Instr → String
  | .cmov _ _ _ => "CMOV"
  | .sload _ _ _ => "SLOAD"
  | .sstore _ _ _ => "SSTORE"
  | .add _ _ _ => "ADD"
  | .mul _ _ _ => "MUL"
  | .div _ _ _ => "DIV"
  | .nand _ _ _ => "NAND"
  | .halt => "HALT"
  | .map _ _ => "MAP"
  | .unmap _ => "UNMAP"
  | .out _ => "OUT"
  | .inp _ => "IN"
  | .loadp _ _ => "LOADP"
  | .loadv _ _ => "LOADV"

/-- A register's name in assembler text, r0 to r7 (30_encoding.md R86). -/
def RegIdx.name (r : RegIdx) : String := "r" ++ toString r.val

/-- The operands in assembler text, in field order (30_encoding.md R86). -/
def Instr.operandNames : Instr → List String
  | .cmov a b c | .sload a b c | .sstore a b c => [RegIdx.name a, RegIdx.name b, RegIdx.name c]
  | .add a b c | .mul a b c | .div a b c | .nand a b c => [RegIdx.name a, RegIdx.name b, RegIdx.name c]
  | .halt => []
  | .map b c | .loadp b c => [RegIdx.name b, RegIdx.name c]
  | .unmap c | .out c | .inp c => [RegIdx.name c]
  | .loadv a imm => [RegIdx.name a, toString imm]

/-- The assembler text of an instruction (30_encoding.md R86), the immediate as a decimal number. -/
def Instr.asm (i : Instr) : String :=
  if i.operandNames.isEmpty then i.mnemonic else i.mnemonic ++ " " ++ ", ".intercalate i.operandNames

end Sys2Proof
end

