-- ==== Sys2Proof/WellFormed.lean ====
section
/-! DEFINITION. Which terms of the syntax are instructions of this machine. -/

namespace Sys2Proof

/-- An immediate fits the 25-bit field: 0 to 2^25 - 1 (30_encoding.md R76, R84). -/
def immediateFits (imm : Nat) : Bool := decide (imm < 2 ^ 25)

/-- Well-formedness. A register field is 0-7 by its type (30_encoding.md R77, "a structural invariant, not a
runtime check"), so the one check is LOADV's immediate (R84). -/
def Instr.wellFormed : Instr → Bool
  | .cmov _ _ _ => true
  | .sload _ _ _ => true
  | .sstore _ _ _ => true
  | .add _ _ _ => true
  | .mul _ _ _ => true
  | .div _ _ _ => true
  | .nand _ _ _ => true
  | .halt => true
  | .map _ _ => true
  | .unmap _ => true
  | .out _ => true
  | .inp _ => true
  | .loadp _ _ => true
  | .loadv _ imm => immediateFits imm

end Sys2Proof
end

