-- ==== Sys2Proof/Decode.lean ====
section
/-! DEFINITION. The decoder of 30_encoding.md R70-R81, total on every 32-bit word, and after it the encoder of
R83, R84. Words are whole: nothing inside the machine sees a byte order (20_memory.md R51). -/

namespace Sys2Proof

/-- The decoder's own verdict on a word (30_encoding.md R75): the raw fields, before the fields that an opcode
does not use are dropped. -/
inductive Decoded where
  /-- Format R, opcodes 0-12. -/
  | threeReg (op : BitVec 4) (a b c : RegIdx)
  /-- Format I, opcode 13. -/
  | loadImm (a : RegIdx) (imm : BitVec 25)
  /-- Opcodes 14 and 15, and a format-R word with nonzero reserved bits where those are rejected. -/
  | invalid (op : BitVec 4)
  deriving DecidableEq, Repr

/-- `w[31:28]`, the opcode field (30_encoding.md R71). -/
def opField (w : Word) : BitVec 4 := w.extractLsb 31 28

/-- `w[27:9]`, the unused bits of format R (30_encoding.md R72). -/
def reservedField (w : Word) : BitVec 19 := w.extractLsb 27 9

/-- `w[8:6]`, field A of format R (30_encoding.md R72). -/
def aField (w : Word) : RegIdx := BitVec.toFin (w := 3) (w.extractLsb 8 6)

/-- `w[5:3]`, field B of format R (30_encoding.md R72). -/
def bField (w : Word) : RegIdx := BitVec.toFin (w := 3) (w.extractLsb 5 3)

/-- `w[2:0]`, field C of format R (30_encoding.md R72). -/
def cField (w : Word) : RegIdx := BitVec.toFin (w := 3) (w.extractLsb 2 0)

/-- `w[27:25]`, field A' of format I (30_encoding.md R73). -/
def immRegField (w : Word) : RegIdx := BitVec.toFin (w := 3) (w.extractLsb 27 25)

/-- `w[24:0]`, the immediate of format I (30_encoding.md R73). -/
def immField (w : Word) : BitVec 25 := w.extractLsb 24 0

/-- `decode(w)` of 30_encoding.md R75, with `REJECT_RESERVED_BITS` as its argument. -/
def decodeFields (reject : Bool) (w : Word) : Decoded :=
  if opField w = 13#4 then .loadImm (immRegField w) (immField w)
  else if opField w = 14#4 ∨ opField w = 15#4 then .invalid (opField w)
  else if reject = true ∧ reservedField w ≠ 0#19 then .invalid (opField w)
  else .threeReg (opField w) (aField w) (bField w) (cField w)

/-- The instruction a verdict stands for: the opcode map of 30_encoding.md R78, each opcode keeping the fields it
uses (R79). `none` is the verdict Invalid, on which dispatch raises MalformedProgram (40_execution_cycle.md R104). -/
def Decoded.instr : Decoded → Option Instr
  | .threeReg 0#4 a b c => some (.cmov a b c)
  | .threeReg 1#4 a b c => some (.sload a b c)
  | .threeReg 2#4 a b c => some (.sstore a b c)
  | .threeReg 3#4 a b c => some (.add a b c)
  | .threeReg 4#4 a b c => some (.mul a b c)
  | .threeReg 5#4 a b c => some (.div a b c)
  | .threeReg 6#4 a b c => some (.nand a b c)
  | .threeReg 7#4 _ _ _ => some .halt
  | .threeReg 8#4 _ b c => some (.map b c)
  | .threeReg 9#4 _ _ c => some (.unmap c)
  | .threeReg 10#4 _ _ c => some (.out c)
  | .threeReg 11#4 _ _ c => some (.inp c)
  | .threeReg 12#4 _ b c => some (.loadp b c)
  | .threeReg _ _ _ _ => none
  | .loadImm a imm => some (.loadv a imm.toNat)
  | .invalid _ => none

/-- The instruction in a word, or `none` where the word is Invalid (30_encoding.md R75, R78, R79). -/
def decode (reject : Bool) (w : Word) : Option Instr := (decodeFields reject w).instr

/-- The word whose bits are those of `w` below `nbits`, bit 0 least significant, as spec/opcode_table.json numbers
them: an instruction is one word, so the table's numbering is the word's own (30_encoding.md R70). -/
def tableWord (nbits w : Nat) : Word := BitVec.ofNat 32 (w % 2 ^ nbits)

/-- The instruction the decoder reads from a row's bits, at the spec's default of `REJECT_RESERVED_BITS`. -/
def decodeTableWord (nbits w : Nat) : Option Instr := decode Config.rejectReservedBits (tableWord nbits w)

/-- `encode_three_register(op, a, b, c)` (30_encoding.md R83). -/
def encodeThreeRegister (op : BitVec 4) (a b c : RegIdx) : Word :=
  BitVec.ofNat 32 (op.toNat * 2 ^ 28 + a.val * 2 ^ 6 + b.val * 2 ^ 3 + c.val)

/-- `encode_immediate(a, value)` (30_encoding.md R84): a value that does not fit is rejected, not truncated. -/
def encodeImmediate (a : RegIdx) (value : Nat) : Option Word :=
  if immediateFits value then some (BitVec.ofNat 32 (13 * 2 ^ 28 + a.val * 2 ^ 25 + value)) else none

/-- An instruction's opcode (30_encoding.md R78). -/
def Instr.opcode : Instr → BitVec 4
  | .cmov _ _ _ => 0#4
  | .sload _ _ _ => 1#4
  | .sstore _ _ _ => 2#4
  | .add _ _ _ => 3#4
  | .mul _ _ _ => 4#4
  | .div _ _ _ => 5#4
  | .nand _ _ _ => 6#4
  | .halt => 7#4
  | .map _ _ => 8#4
  | .unmap _ => 9#4
  | .out _ => 10#4
  | .inp _ => 11#4
  | .loadp _ _ => 12#4
  | .loadv _ _ => 13#4

/-- The encoder: the word of each instruction, unused fields 0 (the "encoding" column of 30_encoding.md R86). -/
def encode : Instr → Option Word
  | .cmov a b c => some (encodeThreeRegister 0#4 a b c)
  | .sload a b c => some (encodeThreeRegister 1#4 a b c)
  | .sstore a b c => some (encodeThreeRegister 2#4 a b c)
  | .add a b c => some (encodeThreeRegister 3#4 a b c)
  | .mul a b c => some (encodeThreeRegister 4#4 a b c)
  | .div a b c => some (encodeThreeRegister 5#4 a b c)
  | .nand a b c => some (encodeThreeRegister 6#4 a b c)
  | .halt => some (encodeThreeRegister 7#4 0 0 0)
  | .map b c => some (encodeThreeRegister 8#4 0 b c)
  | .unmap c => some (encodeThreeRegister 9#4 0 0 c)
  | .out c => some (encodeThreeRegister 10#4 0 0 c)
  | .inp c => some (encodeThreeRegister 11#4 0 0 c)
  | .loadp b c => some (encodeThreeRegister 12#4 0 b c)
  | .loadv a imm => encodeImmediate a imm

end Sys2Proof
end

