-- ==== Sys2Proof/Machine/Flags.lean ====
section
/-! DEFINITION. The machine has no status flags, condition codes or predicates (10_state.md R26). Its only
conditions are tests of a value against zero and OUT's range test. -/

namespace Sys2Proof.Machine

/-- The condition of CMOV and LOADP, and the negation of DIV's fault: "every nonzero value counts as true"
(10_state.md R26; 41_move_memory.md R120). -/
def isTrue (v : Word) : Bool := v != 0#32

/-- A value that OUT can emit: at most 255 (44_io.md R160). -/
def fitsByte (v : Word) : Bool := decide (v.toNat ≤ 255)

end Sys2Proof.Machine
end

