-- ==== Sys2Proof/Machine/Operands.lean ====
section
/-! DEFINITION. The operand forms: a register named by a field of format R, and the immediate of format I. All
operands of an instruction are read from the state before it, before any write (40_execution_cycle.md R103). -/

namespace Sys2Proof.Machine

/-- The three operand values of a format-R instruction. -/
structure Operands where
  /-- The value of register A. -/
  a : Word
  /-- The value of register B. -/
  b : Word
  /-- The value of register C. -/
  c : Word
  deriving DecidableEq, Repr

/-- Reads the three registers of format R at once (40_execution_cycle.md R103). -/
def State.operands (s : State) (a b c : RegIdx) : Operands :=
  { a := s.readReg a, b := s.readReg b, c := s.readReg c }

/-- The immediate operand, `zext_32(imm)` (30_encoding.md R76). -/
def immOperand (imm : Nat) : Word := BitVec.ofNat 32 imm

end Sys2Proof.Machine
end

