-- ==== Sys2Proof/Machine/Alu.lean ====
section
/-! DEFINITION. 42_alu.md: ADD, MUL, DIV, NAND. A result is computed exactly on the natural numbers and then
reduced modulo 2^32 (00_scope.md R11), which is what `BitVec.ofNat 32` does. -/

namespace Sys2Proof.Machine

/-- `(u + v) mod 2^32` (R130). -/
def aluAdd (u v : Word) : Word := BitVec.ofNat 32 (u.toNat + v.toNat)

/-- `(u * v) mod 2^32` (R131). -/
def aluMul (u v : Word) : Word := BitVec.ofNat 32 (u.toNat * v.toNat)

/-- `u div v`, unsigned floor division (R132); used only where `v` is not 0. -/
def aluDiv (u v : Word) : Word := BitVec.ofNat 32 (u.toNat / v.toNat)

/-- `~(u & v)`, bitwise (R133). -/
def aluNand (u v : Word) : Word := ~~~(u &&& v)

/-- The ALU's write-back (40_execution_cycle.md R105): the result of x[B] and x[C] goes to x[A]. -/
def aluWrite (f : Word → Word → Word) (a b c : RegIdx) (s : State) : StepResult :=
  let v := s.operands a b c
  retire (s.writeReg a (f v.b v.c))

/-- ADD (R130). -/
def execAdd (a b c : RegIdx) (s : State) : StepResult := aluWrite aluAdd a b c s

/-- MUL (R131). -/
def execMul (a b c : RegIdx) (s : State) : StepResult := aluWrite aluMul a b c s

/-- DIV (R132): DivisionByZero when x[C] = 0. -/
def execDiv (a b c : RegIdx) (s : State) : StepResult :=
  if isTrue (s.readReg c) then aluWrite aluDiv a b c s else raise .divisionByZero s

/-- NAND (R133). -/
def execNand (a b c : RegIdx) (s : State) : StepResult := aluWrite aluNand a b c s

end Sys2Proof.Machine
end

