-- ==== Sys2Proof/Machine/ByteIo.lean ====
section
/-! DEFINITION. 44_io.md: OUT, IN. -/

namespace Sys2Proof.Machine

/-- The value IN gives at end of stream: all ones (R161). -/
def eofSentinel : Word := 0xFFFFFFFF#32

/-- OUT (R160): OutputRangeViolation when x[C] > 255; nothing is then emitted. -/
def execOut (c : RegIdx) (s : State) : StepResult :=
  let v := s.readReg c
  if fitsByte v then retire (s.outByte (v.setWidth 8)) else raise .outputRangeViolation s

/-- `r <- InByte()` of IN with something offered: the byte zero-extended, or the sentinel at end of stream (R161). -/
def inputWord : Offer → Word
  | .byte b => b.setWidth 32
  | .eof => eofSentinel
  | .nothing => 0#32

/-- IN (R161). With nothing offered it HOLDS: no progress, no state changes (40_execution_cycle.md R108; log
entry 1). -/
def execInp (c : RegIdx) (s : State) : StepResult :=
  match s.offer with
  | .nothing => .next s
  | .byte b => retire (s.takeInput.writeReg c (inputWord (.byte b)))
  | .eof => retire (s.writeReg c (inputWord .eof))

end Sys2Proof.Machine
end

