-- ==== Sys2Proof/Machine/HaltSegment.lean ====
section
/-! DEFINITION. 43_halt_segment.md: HALT, MAP, UNMAP. -/

namespace Sys2Proof.Machine

/-- HALT (R150). -/
def execHalt (s : State) : StepResult := halt s

/-- MAP under a given MEM_CAPACITY (R151; 00_scope.md R9): `x[B] <- SegAlloc(x[C])`. -/
def execMapUnder (cap : Word → Bool) (b c : RegIdx) (s : State) : StepResult :=
  match s.segAlloc cap (s.readReg c) with
  | .error cause => raise cause s
  | .ok (id, t) => retire (t.writeReg b id)

/-- MAP (R151), under the MEM_CAPACITY that the state's own field says (log entry 4). -/
def execMap (b c : RegIdx) (s : State) : StepResult := execMapUnder s.memCapacity b c s

/-- UNMAP (R152): `SegFree(x[C])`. -/
def execUnmap (c : RegIdx) (s : State) : StepResult :=
  match s.segFree (s.readReg c) with
  | .error cause => raise cause s
  | .ok t => retire t

end Sys2Proof.Machine
end

