-- ==== Sys2Proof/Machine/Load.lean ====
section
/-! DEFINITION. 45_load.md: LOADP, LOADV. -/

namespace Sys2Proof.Machine

/-- LOADP (R170): where x[B] is not 0, segment 0 becomes a copy of segment x[B]; then pc <- x[C], whether or not
there was a copy. No LOAD0 request is made when x[B] = 0 (90_conflicts.md C6). -/
def execLoadp (b c : RegIdx) (s : State) : StepResult :=
  let seg := s.readReg b
  let target := s.readReg c
  if isTrue seg then
    match s.segLoad0 seg with
    | .error cause => raise cause s
    | .ok t => .next (t.jump target)
  else .next (s.jump target)

/-- LOADV (R171): `x[A'] <- zext_32(imm)`. -/
def execLoadv (a : RegIdx) (imm : Nat) (s : State) : StepResult := retire (s.writeReg a (immOperand imm))

end Sys2Proof.Machine
end

