-- ==== Sys2Proof/Machine/MoveMemory.lean ====
section
/-! DEFINITION. 41_move_memory.md: CMOV, SLOAD, SSTORE. -/

namespace Sys2Proof.Machine

/-- CMOV (R120): `if x[C] != 0: x[A] <- x[B]`. -/
def execCmov (a b c : RegIdx) (s : State) : StepResult :=
  let v := s.operands a b c
  retire (if isTrue v.c then s.writeReg a v.b else s)

/-- SLOAD (R121): `x[A] <- MemRead((x[B], x[C]), 1)`. -/
def execSload (a b c : RegIdx) (s : State) : StepResult :=
  let v := s.operands a b c
  match s.memRead v.b v.c with
  | .error cause => raise cause s
  | .ok w => retire (s.writeReg a w)

/-- SSTORE (R122): `MemWrite((x[A], x[B]), 1, x[C])`. -/
def execSstore (a b c : RegIdx) (s : State) : StepResult :=
  let v := s.operands a b c
  match s.memWrite v.a v.b v.c with
  | .error cause => raise cause s
  | .ok t => retire t

end Sys2Proof.Machine
end

