-- ==== Sys2Proof/Machine/Step.lean ====
section
/-! DEFINITION. The whole step, 40_execution_cycle.md R111. -/

namespace Sys2Proof.Machine

/-- The step of 40_execution_cycle.md R100-R111, with `REJECT_RESERVED_BITS` as its argument: no step from Halted
or Faulted; else fetch, decode, and run the instruction; a fetch or a word that faults raises its fault. -/
def stepWith (reject : Bool) (s : State) : Host.Outcome State Fault Refusal :=
  match s.run with
  | .halted => .fault .halted
  | .faulted cause => .fault (.faulted cause)
  | .running =>
    match s.fetch with
    | .error cause => raise cause s
    | .ok w =>
      match decode reject w with
      | none => raise .malformedProgram s
      | some i => exec i s

/-- The step at the spec's default of `REJECT_RESERVED_BITS`. -/
def step (s : State) : Host.Outcome State Fault Refusal := stepWith Config.rejectReservedBits s

/-- `s` with an instruction's word loaded where the next fetch reads, word pc of segment 0, and the block running
(log entry 7). -/
def State.withFetchWord (s : State) (nbits w : Nat) : State := s.loadAtPc (tableWord nbits w)

end Sys2Proof.Machine
end

