-- ==== Sys2Proof/Machine/Status.lean ====
section
/-! DEFINITION. What the host sees of the block: the STATUS output (10_state.md R25) and the observation of a run
(40_execution_cycle.md R110). -/

namespace Sys2Proof.Machine

/-- The fault codes (60_exceptions.md R181). -/
def Cause.code : Cause → BitVec 4
  | .malformedProgram => 1#4
  | .invalidSegment => 2#4
  | .outOfBounds => 3#4
  | .divisionByZero => 4#4
  | .outputRangeViolation => 5#4
  | .resourceExhausted => 6#4

/-- The instruction at pc, where the fetch and the decoder give one. -/
def State.instrAt (reject : Bool) (s : State) : Option Instr :=
  match s.fetch with
  | .error _ => none
  | .ok w => decode reject w

/-- The instruction is IN. -/
def isInp : Option Instr → Bool
  | some (.inp _) => true
  | _ => false

/-- WaitInput's condition (10_state.md R25): Running, the instruction at pc is IN, and the port offers nothing. -/
def State.waiting (reject : Bool) (s : State) : Bool :=
  decide (s.run = .running) && isInp (s.instrAt reject) && decide (s.offer = .nothing)

/-- STATUS.STATE, bits 1:0 (10_state.md R25). -/
def State.statusState (reject : Bool) (s : State) : BitVec 2 :=
  match s.run with
  | .running => if s.waiting reject then 1#2 else 0#2
  | .halted => 2#2
  | .faulted _ => 3#2

/-- STATUS.FAULT_CODE, bits 7:4 (10_state.md R25). -/
def State.faultCode (s : State) : BitVec 4 :=
  match s.run with
  | .running => 0#4
  | .halted => 0#4
  | .faulted cause => cause.code

/-- The STATUS output (10_state.md R25): FAULT_CODE in bits 7:4, 0 in bits 3:2, STATE in bits 1:0. -/
def State.status (reject : Bool) (s : State) : BitVec 8 := s.faultCode ++ 0#2 ++ s.statusState reject

/-- The observation of a run (40_execution_cycle.md R110). -/
structure Observation where
  /-- The final state value. -/
  run : RunState
  /-- The bytes emitted. -/
  outq : List Byte
  /-- The registers. -/
  regs : Vector Word 8
  /-- The segment memory. -/
  mem : Memory
  deriving DecidableEq, Repr

/-- What is observed of a state at the end of a run. -/
def State.observation (s : State) : Observation :=
  { run := s.run, outq := s.outq, regs := s.regs, mem := s.mem }

end Sys2Proof.Machine
end

