-- ==== Sys2Proof/Machine/Capacity.lean ====
section
/-! DEFINITION. The step with MEM_CAPACITY as its argument, "a predicate the model takes as an argument"
(00_scope.md R9; 10_state.md R32; 92_eei_decisions.md D13). -/

namespace Sys2Proof.Machine

/-- The step under a given MEM_CAPACITY, which may be another one at each step ("can be satisfied now", 00_scope.md
R9). MAP alone asks for it (20_memory.md R44), so every other step is `stepWith`'s. `stepWith` is this with the
predicate that the state's own field says (log entry 4). -/
def stepUnder (cap : Word → Bool) (reject : Bool) (s : State) : StepResult :=
  match s.run, s.instrAt reject with
  | .running, some (.map b c) => execMapUnder cap b c s
  | _, _ => stepWith reject s

end Sys2Proof.Machine
end

