-- ==== Sys2Proof/Safety.lean ====
section
/-! DEFINITION. The invariant of the machine, the runs it has, and what a safe run is. -/

namespace Sys2Proof.Machine

/-- The invariant of the segment memory (20_memory.md R41-R44; 00_scope.md R9). -/
structure Memory.Inv (m : Memory) : Prop where
  /-- Every live segment is in canonical form. -/
  canonical : m.wf = true
  /-- "slot 0 always holds a live segment once execution begins" (R43). -/
  zeroLive : ∃ g, m.slots[0]? = some (.live g)
  /-- No identifier waits twice for reuse. -/
  freeNodup : m.freeq.Nodup
  /-- "Every identifier in freeq names a slot that is Empty" (R42), and every Empty slot's identifier waits there. -/
  freeEmpty : ∀ id : Word, id ∈ m.freeq ↔ m.slots[id.toNat]? = some .empty
  /-- Every slot has an identifier of 32 bits (R44). -/
  slotsBound : m.slots.length ≤ 2 ^ 32
  /-- A segment has at most 2^32 - 1 words (00_scope.md R9). -/
  lengths : ∀ (k : Nat) (g : Segment), m.slots[k]? = some (.live g) → g.len < 2 ^ 32

/-- The invariant of the machine: that of its segment memory. Every other field may hold any value of its type. -/
structure State.Inv (s : State) : Prop where
  /-- The segment memory's invariant. -/
  mem : s.mem.Inv

/-- What can come of a state by steps of the block and by what the host does to the input port between steps. -/
inductive Reaches (reject : Bool) (s : State) : State → Prop where
  /-- Nothing yet. -/
  | start : Reaches reject s s
  /-- One step of the block. -/
  | step {t u : State} : Reaches reject s t → stepWith reject t = .next u → Reaches reject s u
  /-- One act of the host. -/
  | host {t : State} (e : HostEvent) : Reaches reject s t → Reaches reject s (t.host e)

/-- A safe state: no run from it comes to a fault (60_exceptions.md R180), whatever the host supplies. -/
def NeverFaults (reject : Bool) (s : State) : Prop :=
  ∀ t, Reaches reject s t → ∀ cause, t.run ≠ .faulted cause

/-- The write-back destination of each instruction (10_state.md R22; 40_execution_cycle.md R105, "wb dest"). -/
def destOf : Instr → Option RegIdx
  | .cmov a _ _ => some a
  | .sload a _ _ => some a
  | .sstore _ _ _ => none
  | .add a _ _ => some a
  | .mul a _ _ => some a
  | .div a _ _ => some a
  | .nand a _ _ => some a
  | .halt => none
  | .map b _ => some b
  | .unmap _ => none
  | .out _ => none
  | .inp c => some c
  | .loadp _ _ => none
  | .loadv a _ => some a

/-- Allocates segments of the given lengths, one after the other (20_memory.md R44, R49). -/
def Memory.allocAll : Memory → List Word → Except Cause (List Word × Memory)
  | m, [] => .ok ([], m)
  | m, n :: ns =>
    match m.alloc n with
    | .error cause => .error cause
    | .ok (id, m1) =>
      match m1.allocAll ns with
      | .error cause => .error cause
      | .ok (ids, m2) => .ok (id :: ids, m2)

end Sys2Proof.Machine
end

