-- ==== Sys2Proof/Certificates/Slice0/Obligations.lean ====
section
/-! DEFINITION. The statements for the provers, in the order of the spec's files. -/

open Sys2Proof Sys2Proof.Machine

/-! ## 30_encoding.md -/

/-- R75 (with the fields of R72, R73): the decoder's verdict on every word, the fields as numbers. -/
def Obligations.DecoderVerdictOnEveryWord : Prop :=
  ∀ (reject : Bool) (w : Word),
    (w.toNat / 2 ^ 28 = 13 →
      ∃ (a : RegIdx) (imm : BitVec 25), decodeFields reject w = .loadImm a imm ∧
        a.val = w.toNat / 2 ^ 25 % 8 ∧ imm.toNat = w.toNat % 2 ^ 25) ∧
    (14 ≤ w.toNat / 2 ^ 28 →
      ∃ op : BitVec 4, decodeFields reject w = .invalid op ∧ op.toNat = w.toNat / 2 ^ 28) ∧
    (w.toNat / 2 ^ 28 ≤ 12 → reject = true → w.toNat / 2 ^ 9 % 2 ^ 19 ≠ 0 →
      ∃ op : BitVec 4, decodeFields reject w = .invalid op ∧ op.toNat = w.toNat / 2 ^ 28) ∧
    (w.toNat / 2 ^ 28 ≤ 12 → (reject = false ∨ w.toNat / 2 ^ 9 % 2 ^ 19 = 0) →
      ∃ (op : BitVec 4) (a b c : RegIdx), decodeFields reject w = .threeReg op a b c ∧
        op.toNat = w.toNat / 2 ^ 28 ∧ a.val = w.toNat / 2 ^ 6 % 8 ∧ b.val = w.toNat / 2 ^ 3 % 8 ∧
        c.val = w.toNat % 8)

/-- R78: the opcode of each mnemonic; an instruction is decoded only from words whose bits 31-28 are its opcode; with
`REJECT_RESERVED_BITS` false every word of opcodes 0-13 gives one, and opcodes 14 and 15 give none. -/
def Obligations.OpcodeMap : Prop :=
  (∀ i : Instr, (i.mnemonic, i.opcode.toNat) ∈
    [("CMOV", 0), ("SLOAD", 1), ("SSTORE", 2), ("ADD", 3), ("MUL", 4), ("DIV", 5), ("NAND", 6), ("HALT", 7),
      ("MAP", 8), ("UNMAP", 9), ("OUT", 10), ("IN", 11), ("LOADP", 12), ("LOADV", 13)]) ∧
  (∀ (reject : Bool) (w : Word) (i : Instr), decode reject w = some i →
    w &&& 0xF0000000#32 = BitVec.ofNat 32 (i.opcode.toNat * 2 ^ 28) ∧ i.wellFormed = true) ∧
  (∀ w : Word, (w.toNat / 2 ^ 28 ≤ 13 ↔ ∃ i, decode false w = some i)) ∧
  (∀ (reject : Bool) (w : Word), 14 ≤ w.toNat / 2 ^ 28 → decode reject w = none)

/-- R79, its table of the fields each opcode uses and ignores: a format-R field that an opcode does not use has no
effect and is never checked, for either value of `REJECT_RESERVED_BITS`, and bits 27-9 have none while it is false;
and every field an opcode uses counts: words of one opcode that decode alike agree in each field it uses. -/
def Obligations.UnusedFieldsIgnored : Prop :=
  (∀ (reject : Bool) (w v : Word), opField w = opField v →
    (reject = true → reservedField w = reservedField v) →
    ((opField w).toNat ≤ 6 → aField w = aField v → bField w = bField v → cField w = cField v →
      decode reject w = decode reject v) ∧
    ((opField w).toNat = 7 → decode reject w = decode reject v) ∧
    ((opField w).toNat = 8 ∨ (opField w).toNat = 12 → bField w = bField v → cField w = cField v →
      decode reject w = decode reject v) ∧
    ((opField w).toNat = 9 ∨ (opField w).toNat = 10 ∨ (opField w).toNat = 11 → cField w = cField v →
      decode reject w = decode reject v)) ∧
  (∀ w v : Word, opField w = opField v → decode false w = decode false v →
    ((opField w).toNat ≤ 6 → aField w = aField v ∧ bField w = bField v ∧ cField w = cField v) ∧
    ((opField w).toNat = 8 ∨ (opField w).toNat = 12 → bField w = bField v ∧ cField w = cField v) ∧
    ((opField w).toNat = 9 ∨ (opField w).toNat = 10 ∨ (opField w).toNat = 11 → cField w = cField v) ∧
    ((opField w).toNat = 13 → immRegField w = immRegField v ∧ immField w = immField v))

/-- R80: executing a word of opcode 14 or 15 raises MalformedProgram, code 1, and (bits 27-9 being ignored) only the word
fetched for execution can raise it: such a word that is never executed is harmless data. -/
def Obligations.UnassignedOpcodesFault : Prop :=
  (∀ (reject : Bool) (s : State) (w : Word), s.run = .running → s.mem.read 0#32 s.pc = .ok w →
    w.toNat / 2 ^ 28 = 14 ∨ w.toNat / 2 ^ 28 = 15 →
    stepWith reject s = .next { s with run := .faulted .malformedProgram }) ∧
  (∀ s t : State, stepWith false s = .next t → t.run = .faulted .malformedProgram →
    ∃ w, s.mem.read 0#32 s.pc = .ok w ∧ 14 ≤ w.toNat / 2 ^ 28) ∧
  Cause.code .malformedProgram = 1#4

/-- R81: bits 27-9 of format R are ignored while `REJECT_RESERVED_BITS` is false; while it is true, a nonzero one
makes the word Invalid, which raises MalformedProgram when executed; HALT is checked on bits 27-9 like the others;
format I has no reserved bits. -/
def Obligations.ReservedBits : Prop :=
  (∀ w v : Word, opField w ≠ 13#4 → w &&& 0xF00001FF#32 = v &&& 0xF00001FF#32 →
    decode false w = decode false v) ∧
  (∀ w : Word, opField w ≠ 13#4 → reservedField w ≠ 0#19 → decode true w = none) ∧
  (∀ w : Word, reservedField w = 0#19 → decode true w = decode false w) ∧
  (∀ w : Word, opField w = 13#4 → decode true w = decode false w) ∧
  (∀ (s : State) (w : Word), s.run = .running → s.mem.read 0#32 s.pc = .ok w → opField w ≠ 13#4 →
    reservedField w ≠ 0#19 → stepWith true s = .next { s with run := .faulted .malformedProgram })

/-- R84: `encode_immediate` of a value that fits is exactly (13 << 28) + (a << 25) + value; of any other it is
rejected. -/
def Obligations.EncodeImmediateRejects : Prop :=
  ∀ (a : RegIdx) (value : Nat),
    (value < 2 ^ 25 → ∃ w, encodeImmediate a value = some w ∧
      w.toNat = (13 <<< 28) + (a.val <<< 25) + value) ∧
    (2 ^ 25 ≤ value → encodeImmediate a value = none)

/-- R85: the round-trip laws, both directions, for both formats. -/
def Obligations.CodecRoundTrip : Prop :=
  (∀ (reject : Bool) (op : BitVec 4) (a b c : RegIdx), op.toNat ≤ 12 →
    decodeFields reject (encodeThreeRegister op a b c) = .threeReg op a b c) ∧
  (∀ (reject : Bool) (a : RegIdx) (value : Nat), value < 2 ^ 25 →
    ∃ w imm, encodeImmediate a value = some w ∧ decodeFields reject w = .loadImm a imm ∧ imm.toNat = value) ∧
  (∀ (reject : Bool) (w : Word), reservedField w = 0#19 → (opField w).toNat ≤ 12 →
    ∃ op a b c, decodeFields reject w = .threeReg op a b c ∧ encodeThreeRegister op a b c = w) ∧
  (∀ (reject : Bool) (w : Word), opField w = 13#4 →
    ∃ a imm, decodeFields reject w = .loadImm a imm ∧ encodeImmediate a imm.toNat = some w)

/-- Every well-formed instruction has a word, and the word decodes to it, for either value of
`REJECT_RESERVED_BITS`. -/
def Obligations.DecodeOfEncode : Prop :=
  ∀ (reject : Bool) (i : Instr), i.wellFormed = true → ∃ w, encode i = some w ∧ decode reject w = some i

/-- Words written out from the spec's encodings, one for each family (a sanity statement). -/
def Obligations.SampleWordsDecode : Prop :=
  decode false 0x00000053#32 = some (.cmov 1 2 3) ∧ decode false 0x12345678#32 = some (.sload 1 7 0) ∧
  decode false 0x30000053#32 = some (.add 1 2 3) ∧ decode false 0x80000013#32 = some (.map 2 3) ∧
  decode false 0xB0000001#32 = some (.inp 1) ∧ decode false 0xC000003F#32 = some (.loadp 7 7) ∧
  decode false 0xDEADBEEF#32 = some (.loadv 7 0x0ADBEEF) ∧ decode false 0xE0000000#32 = none

/-! ## 40_execution_cycle.md -/

/-- R111 (derived): with the block running and the word at pc decoded, a step is the instruction's own meaning;
nothing is added around it, pc included. The machine's step is the one at the default of `REJECT_RESERVED_BITS`. -/
def Obligations.StepRunsDecodedInstruction : Prop :=
  (∀ (reject : Bool) (s : State) (w : Word) (i : Instr), s.run = .running → s.mem.read 0#32 s.pc = .ok w →
    decode reject w = some i → stepWith reject s = exec i s) ∧
  (∀ s : State, Sys2Proof.core.step s = stepWith false s)

/-- R100 (derived, and the model's choice of log entries 1 and 2): there is a step exactly when the block is
Running; from Halted and from Faulted the model answers its stuck outcome. -/
def Obligations.StepExactlyWhenRunning : Prop :=
  ∀ (reject : Bool) (s : State),
    (s.run = .running ↔ ∃ t, stepWith reject s = .next t) ∧
    (s.run = .halted → stepWith reject s = .fault .halted) ∧
    (∀ cause, s.run = .faulted cause → stepWith reject s = .fault (.faulted cause))

/-- No instruction is refused and none stops the model: every meaning answers a next state from every state (derived,
40_execution_cycle.md R105). In two cases that is the model's choice of how it says a rule: a fault of the spec is a
next state (R107; log entry 3), and so is IN with nothing offered, where R108 says that the step is not enabled (log
entry 1). -/
def Obligations.EveryInstructionAnswersNext : Prop := ∀ (i : Instr) (s : State), ∃ t, exec i s = .next t

/-- R101: the fetch is word pc of segment 0; past its end it raises OutOfBounds and the step ends so; it never
raises InvalidSegment while slot 0 is Live. -/
def Obligations.FetchReadsSegmentZero : Prop :=
  ∀ (s : State) (g : Segment), s.mem.slots[0]? = some (.live g) →
    (s.pc.toNat < g.len → s.fetch = .ok (g.get s.pc.toNat)) ∧
    (g.len ≤ s.pc.toNat → s.fetch = .error .outOfBounds ∧
      (s.run = .running → ∀ reject, stepWith reject s = .next { s with run := .faulted .outOfBounds })) ∧
    s.fetch ≠ .error .invalidSegment

/-- R106: the next pc. A faulting step leaves pc; HALT ends Halted and leaves pc; LOADP loads x[C]; every other
instruction that runs to its end adds one modulo 2^32. A held IN (R108) leaves the state as it is. -/
def Obligations.NextPc : Prop :=
  ∀ (reject : Bool) (s t : State), stepWith reject s = .next t →
    (∀ cause, t.run = .faulted cause → t.pc = s.pc) ∧
    (∀ w i, s.mem.read 0#32 s.pc = .ok w → decode reject w = some i → t.run ≠ .running →
      (i = .halt ∧ t.run = .halted ∧ t.pc = s.pc) ∨ ∃ cause, t.run = .faulted cause) ∧
    (∀ w, s.mem.read 0#32 s.pc = .ok w → decode reject w = some .halt → t.run = .halted ∧ t.pc = s.pc) ∧
    (∀ w b c, s.mem.read 0#32 s.pc = .ok w → decode reject w = some (.loadp b c) → t.run = .running →
      t.pc = s.regs[c]) ∧
    (∀ w i, s.mem.read 0#32 s.pc = .ok w → decode reject w = some i → t.run = .running →
      i ≠ .halt → (∀ b c, i ≠ .loadp b c) →
      t.pc.toNat = (s.pc.toNat + 1) % 2 ^ 32 ∨ (t = s ∧ s.inq = [] ∧ s.inClosed = false ∧ ∃ c, i = .inp c))

/-- R105 (derived): an instruction writes at most one register, the destination its row names. -/
def Obligations.OneRegisterWritten : Prop :=
  ∀ (i : Instr) (s t : State) (k : RegIdx), exec i s = .next t → destOf i ≠ some k → t.regs[k] = s.regs[k]

/-- R108 (derived; that the hold is a step which changes nothing is the model's choice, log entry 1): IN with
nothing offered holds, and goes on once the host supplies a byte or closes the input. -/
def Obligations.HeldInputResumes : Prop :=
  ∀ (reject : Bool) (s : State) (w : Word) (c : RegIdx), s.run = .running → s.mem.read 0#32 s.pc = .ok w →
    decode reject w = some (.inp c) → s.inq = [] → s.inClosed = false →
    stepWith reject s = .next s ∧
    (∀ b : Byte, stepWith reject (s.host (.supply b)) =
      .next { s with regs := s.regs.set c (BitVec.ofNat 32 b.toNat), pc := s.pc + 1#32 }) ∧
    stepWith reject (s.host .close) =
      .next { s with regs := s.regs.set c 0xFFFFFFFF#32, pc := s.pc + 1#32, inClosed := true }

/-- The host's load of one word (the model's own operation, log entry 7): the next step fetches it and runs it. -/
def Obligations.LoadedWordRunsNext : Prop :=
  ∀ (s : State) (w : Nat) (i : Instr), s.mem.wf = true → decodeTableWord 32 w = some i →
    (s.withFetchWord 32 w).fetch = .ok (BitVec.ofNat 32 w) ∧
    step (s.withFetchWord 32 w) = exec i (s.withFetchWord 32 w)

/-! ## 41_move_memory.md -/

/-- R120. -/
def Obligations.CmovRule : Prop :=
  (∀ (reject : Bool) (w : Word), opField w = 0#4 → (reject = true → reservedField w = 0#19) →
    decode reject w = some (.cmov (aField w) (bField w) (cField w))) ∧
  (∀ (a b c : RegIdx) (s : State), s.regs[c] ≠ 0#32 →
    exec (.cmov a b c) s = .next { s with regs := s.regs.set a s.regs[b], pc := s.pc + 1#32 }) ∧
  (∀ (a b c : RegIdx) (s : State), s.regs[c] = 0#32 → exec (.cmov a b c) s = .next { s with pc := s.pc + 1#32 })

/-- R121, faults included: InvalidSegment first, then OutOfBounds; on a fault x[A] is unchanged. -/
def Obligations.SloadRule : Prop :=
  (∀ (reject : Bool) (w : Word), opField w = 1#4 → (reject = true → reservedField w = 0#19) →
    decode reject w = some (.sload (aField w) (bField w) (cField w))) ∧
  (∀ (a b c : RegIdx) (s : State) (g : Segment), s.mem.slots[s.regs[b].toNat]? = some (.live g) →
    s.regs[c].toNat < g.len →
    exec (.sload a b c) s = .next { s with regs := s.regs.set a (g.get s.regs[c].toNat), pc := s.pc + 1#32 }) ∧
  (∀ (a b c : RegIdx) (s : State),
    s.mem.slots.length ≤ s.regs[b].toNat ∨ s.mem.slots[s.regs[b].toNat]? = some .empty →
    exec (.sload a b c) s = .next { s with run := .faulted .invalidSegment }) ∧
  (∀ (a b c : RegIdx) (s : State) (g : Segment), s.mem.slots[s.regs[b].toNat]? = some (.live g) →
    g.len ≤ s.regs[c].toNat → exec (.sload a b c) s = .next { s with run := .faulted .outOfBounds })

/-- R122, faults included. The stored word reads back; every other word of every segment reads as before; no
segment changes its length; no register is written. -/
def Obligations.SstoreRule : Prop :=
  (∀ (reject : Bool) (w : Word), opField w = 2#4 → (reject = true → reservedField w = 0#19) →
    decode reject w = some (.sstore (aField w) (bField w) (cField w))) ∧
  (∀ (a b c : RegIdx) (s : State) (g : Segment), s.mem.wf = true →
    s.mem.slots[s.regs[a].toNat]? = some (.live g) → s.regs[b].toNat < g.len →
    ∃ m, exec (.sstore a b c) s = .next { s with mem := m, pc := s.pc + 1#32 } ∧
      m.freeq = s.mem.freeq ∧ m.slots.length = s.mem.slots.length ∧
      m.read s.regs[a] s.regs[b] = .ok s.regs[c] ∧
      (∀ k i : Word, (k, i) ≠ (s.regs[a], s.regs[b]) → m.read k i = s.mem.read k i)) ∧
  (∀ (a b c : RegIdx) (s : State),
    s.mem.slots.length ≤ s.regs[a].toNat ∨ s.mem.slots[s.regs[a].toNat]? = some .empty →
    exec (.sstore a b c) s = .next { s with run := .faulted .invalidSegment }) ∧
  (∀ (a b c : RegIdx) (s : State) (g : Segment), s.mem.slots[s.regs[a].toNat]? = some (.live g) →
    g.len ≤ s.regs[b].toNat → exec (.sstore a b c) s = .next { s with run := .faulted .outOfBounds })

/-! ## 42_alu.md -/

/-- R130. -/
def Obligations.AddRule : Prop :=
  (∀ (reject : Bool) (w : Word), opField w = 3#4 → (reject = true → reservedField w = 0#19) →
    decode reject w = some (.add (aField w) (bField w) (cField w))) ∧
  ∀ (a b c : RegIdx) (s : State), ∃ v : Word, v.toNat = (s.regs[b].toNat + s.regs[c].toNat) % 2 ^ 32 ∧
    exec (.add a b c) s = .next { s with regs := s.regs.set a v, pc := s.pc + 1#32 }

/-- R131. -/
def Obligations.MulRule : Prop :=
  (∀ (reject : Bool) (w : Word), opField w = 4#4 → (reject = true → reservedField w = 0#19) →
    decode reject w = some (.mul (aField w) (bField w) (cField w))) ∧
  ∀ (a b c : RegIdx) (s : State), ∃ v : Word, v.toNat = (s.regs[b].toNat * s.regs[c].toNat) % 2 ^ 32 ∧
    exec (.mul a b c) s = .next { s with regs := s.regs.set a v, pc := s.pc + 1#32 }

/-- R132, R135: the quotient is the one q with q * x[C] ≤ x[B] < (q + 1) * x[C]; x[C] = 0 faults and gives no
value. -/
def Obligations.DivRule : Prop :=
  (∀ (reject : Bool) (w : Word), opField w = 5#4 → (reject = true → reservedField w = 0#19) →
    decode reject w = some (.div (aField w) (bField w) (cField w))) ∧
  (∀ (a b c : RegIdx) (s : State), s.regs[c] ≠ 0#32 → ∃ q : Word, q.toNat = s.regs[b].toNat / s.regs[c].toNat ∧
    q.toNat * s.regs[c].toNat ≤ s.regs[b].toNat ∧ s.regs[b].toNat < (q.toNat + 1) * s.regs[c].toNat ∧
    exec (.div a b c) s = .next { s with regs := s.regs.set a q, pc := s.pc + 1#32 }) ∧
  (∀ (a b c : RegIdx) (s : State), s.regs[c] = 0#32 →
    exec (.div a b c) s = .next { s with run := .faulted .divisionByZero })

/-- R133: result bit i is NOT(x[B] bit i AND x[C] bit i). -/
def Obligations.NandRule : Prop :=
  (∀ (reject : Bool) (w : Word), opField w = 6#4 → (reject = true → reservedField w = 0#19) →
    decode reject w = some (.nand (aField w) (bField w) (cField w))) ∧
  ∀ (a b c : RegIdx) (s : State), ∃ v : Word,
    (∀ i, i < 32 → v.getLsbD i = !(s.regs[b].getLsbD i && s.regs[c].getLsbD i)) ∧
    exec (.nand a b c) s = .next { s with regs := s.regs.set a v, pc := s.pc + 1#32 }

/-- R136: the identities, as sequences of ALU results. -/
def Obligations.AluIdentities : Prop :=
  (∀ v : Word, aluNand v v = ~~~v) ∧
  (∀ u v : Word, aluNand (aluNand u v) (aluNand u v) = u &&& v) ∧
  (∀ u v : Word, aluNand (aluNand u u) (aluNand v v) = u ||| v) ∧
  (∀ u v : Word, aluAdd (aluAdd u (aluNand v v)) 1#32 = u - v) ∧
  (aluNand 0#32 0#32 = 0xFFFFFFFF#32 ∧ ∀ k : RegIdx, State.reset.regs[k] = 0#32)

/-! ## 43_halt_segment.md and the segment memory of 20_memory.md -/

/-- R150. -/
def Obligations.HaltRule : Prop :=
  (∀ (reject : Bool) (w : Word), opField w = 7#4 → (reject = true → reservedField w = 0#19) →
    decode reject w = some .halt) ∧
  (∀ w : Word, opField w = 7#4 → reservedField w ≠ 0#19 → ∀ s : State, s.run = .running →
    s.mem.read 0#32 s.pc = .ok w → stepWith true s = .next { s with run := .faulted .malformedProgram }) ∧
  (∀ s : State, exec .halt s = .next { s with run := .halted } ∧
    ∀ (reject : Bool) (t : State), stepWith reject { s with run := .halted } ≠ .next t)

/-- R151: MAP with MEM_CAPACITY true takes the oldest freed identifier, else a new one at the end; the new
segment is all zero and every other segment is as it was; the identifier is never 0. With MEM_CAPACITY false, or no
identifier left, it faults. The field `memLimits`, by which the model says MEM_CAPACITY, is its own (log entry 4):
what MAP leaves in it is not stated here. -/
def Obligations.MapRule : Prop :=
  (∀ (reject : Bool) (w : Word), opField w = 8#4 → (reject = true → reservedField w = 0#19) →
    decode reject w = some (.map (bField w) (cField w))) ∧
  (∀ (b c : RegIdx) (s : State) (id : Word) (rest : List Word), s.memCapacity s.regs[c] = true →
    s.mem.freeq = id :: rest → ∃ limits g, exec (.map b c) s = .next { s with
      regs := s.regs.set b id, pc := s.pc + 1#32, memLimits := limits,
      mem := { slots := s.mem.slots.set id.toNat (.live g), freeq := rest } } ∧
      g.len = s.regs[c].toNat ∧ ∀ i, g.get i = 0#32) ∧
  (∀ (b c : RegIdx) (s : State), s.memCapacity s.regs[c] = true → s.mem.freeq = [] →
    s.mem.slots.length < 2 ^ 32 → ∃ limits g id, exec (.map b c) s = .next { s with
      regs := s.regs.set b id, pc := s.pc + 1#32, memLimits := limits,
      mem := { slots := s.mem.slots ++ [.live g], freeq := [] } } ∧
      id.toNat = s.mem.slots.length ∧ g.len = s.regs[c].toNat ∧ ∀ i, g.get i = 0#32) ∧
  (∀ (b c : RegIdx) (s t : State), s.Inv → s.run = .running → exec (.map b c) s = .next t → t.run = .running →
    t.regs[b] ≠ 0#32) ∧
  (∀ (b c : RegIdx) (s : State),
    s.memCapacity s.regs[c] = false ∨ (s.mem.freeq = [] ∧ 2 ^ 32 ≤ s.mem.slots.length) →
    exec (.map b c) s = .next { s with run := .faulted .resourceExhausted })

/-- How the model's own field says MEM_CAPACITY (the model's choice, log entry 4): a length cannot be had exactly
when a range of the entry that is up covers it; MAP faults on every such length and on no other while an identifier
is left; a granted MAP brings the next entry up, the last one standing; with no entry every length can be had. -/
def Obligations.MapUsesLimits : Prop :=
  (∀ (s : State) (n : Word) (entry : List LengthRange) (more : List (List LengthRange)),
    s.memLimits = entry :: more →
    (s.memCapacity n = false ↔ ∃ r ∈ entry, r.lo.toNat ≤ n.toNat ∧ n.toNat ≤ r.hi.toNat)) ∧
  (∀ (b c : RegIdx) (s : State) (entry : List LengthRange) (more : List (List LengthRange)),
    s.memLimits = entry :: more → s.run = .running →
    (s.mem.freeq ≠ [] ∨ s.mem.slots.length < 2 ^ 32) → ∃ t, exec (.map b c) s = .next t ∧
      (t.run = .faulted .resourceExhausted ↔
        ∃ r ∈ entry, r.lo.toNat ≤ s.regs[c].toNat ∧ s.regs[c].toNat ≤ r.hi.toNat) ∧
      (t.run = .running ↔ ∀ r ∈ entry, s.regs[c].toNat < r.lo.toNat ∨ r.hi.toNat < s.regs[c].toNat)) ∧
  (∀ (b c : RegIdx) (s t : State), exec (.map b c) s = .next t → s.run = .running → t.run = .running →
    (∀ entry next rest, s.memLimits = entry :: next :: rest → t.memLimits = next :: rest) ∧
    (∀ standing, s.memLimits = [standing] → t.memLimits = [standing]) ∧
    (s.memLimits = [] → t.memLimits = [])) ∧
  (∀ (s : State) (n : Word), s.memLimits = [] → s.memCapacity n = true)

/-- MEM_CAPACITY as a predicate that stands (the model's choice of how it is said, log entry 4; the parameter is
10_state.md R32's): for every predicate on lengths there are limits that say it, for the first step and, whatever the
block and the host do, for every later one; among them "fewer than `bound` words". -/
def Obligations.CapacityStands : Prop :=
  (∀ p : Word → Bool, ∃ limits : List LengthRange, ∀ (reject : Bool) (s t : State), s.memLimits = [limits] →
    Reaches reject s t → ∀ n, t.memCapacity n = p n) ∧
  (∀ (reject : Bool) (s t : State) (bound : Word), s.memLimits = [[{ lo := bound, hi := 0xFFFFFFFF#32 }]] →
    Reaches reject s t → ∀ n, t.memCapacity n = true ↔ n.toNat < bound.toNat)

/-- MEM_CAPACITY as an argument of the step (00_scope.md R9; 10_state.md R32; 20_memory.md R44): under every predicate
MAP faults where it is false and else allocates; no other step asks for it; the model's own field `memLimits` plays no
part beside it; and the step of the other statements is this one under what that field says (the model's choice, log
entry 4). -/
def Obligations.CapacityIsAnArgument : Prop :=
  ∀ (cap : Word → Bool) (reject : Bool) (s : State),
    (∀ (w : Word) (b c : RegIdx), s.run = .running → s.mem.read 0#32 s.pc = .ok w →
      decode reject w = some (.map b c) →
      (cap s.regs[c] = false → stepUnder cap reject s = .next { s with run := .faulted .resourceExhausted }) ∧
      (∀ id rest, cap s.regs[c] = true → s.mem.freeq = id :: rest → ∃ limits, stepUnder cap reject s = .next { s with
        regs := s.regs.set b id, pc := s.pc + 1#32, memLimits := limits,
        mem := { slots := s.mem.slots.set id.toNat (.live { len := s.regs[c].toNat, cells := [] }), freeq := rest } }) ∧
      (cap s.regs[c] = true → s.mem.freeq = [] → s.mem.slots.length < 2 ^ 32 → ∃ limits,
        stepUnder cap reject s = .next { s with
          regs := s.regs.set b (BitVec.ofNat 32 s.mem.slots.length), pc := s.pc + 1#32, memLimits := limits,
          mem := { slots := s.mem.slots ++ [.live { len := s.regs[c].toNat, cells := [] }], freeq := [] } })) ∧
    ((∀ w b c, s.mem.read 0#32 s.pc = .ok w → decode reject w ≠ some (.map b c)) →
      stepUnder cap reject s = stepWith reject s) ∧
    (∀ (limits : List (List LengthRange)) (t : State), stepUnder cap reject s = .next t → ∃ left,
      stepUnder cap reject { s with memLimits := limits } = .next { t with memLimits := left }) ∧
    stepUnder s.memCapacity reject s = stepWith reject s

/-- R152: UNMAP of a live segment other than 0 empties its slot and queues its identifier last; then every access
to it faults InvalidSegment; of 0, of an empty slot or past the last slot it faults. -/
def Obligations.UnmapRule : Prop :=
  (∀ (reject : Bool) (w : Word), opField w = 9#4 → (reject = true → reservedField w = 0#19) →
    decode reject w = some (.unmap (cField w))) ∧
  (∀ (c : RegIdx) (s : State) (g : Segment), s.regs[c] ≠ 0#32 →
    s.mem.slots[s.regs[c].toNat]? = some (.live g) →
    ∃ m, exec (.unmap c) s = .next { s with mem := m, pc := s.pc + 1#32 } ∧
      m.slots = s.mem.slots.set s.regs[c].toNat .empty ∧ m.freeq = s.mem.freeq ++ [s.regs[c]] ∧
      ∀ i v : Word, m.read s.regs[c] i = .error .invalidSegment ∧
        m.write s.regs[c] i v = .error .invalidSegment ∧ m.free s.regs[c] = .error .invalidSegment ∧
        m.load0 s.regs[c] = .error .invalidSegment) ∧
  (∀ (c : RegIdx) (s : State),
    s.regs[c] = 0#32 ∨ s.mem.slots.length ≤ s.regs[c].toNat ∨ s.mem.slots[s.regs[c].toNat]? = some .empty →
    exec (.unmap c) s = .next { s with run := .faulted .invalidSegment })

/-- R48: LOAD0 replaces slot 0 by an independent copy: slot 0 reads as segment s did, segment s and every other
segment read as before, and a later write to either of the two is not seen in the other. -/
def Obligations.LoadZeroCopies : Prop :=
  (∀ m : Memory, m.load0 0#32 = .ok m) ∧
  (∀ (m : Memory) (s : Word), s ≠ 0#32 →
    m.slots.length ≤ s.toNat ∨ m.slots[s.toNat]? = some .empty → m.load0 s = .error .invalidSegment) ∧
  (∀ (m : Memory) (s : Word) (g : Segment), s ≠ 0#32 → m.slots[s.toNat]? = some (.live g) →
    ∃ m', m.load0 s = .ok m' ∧ m'.freeq = m.freeq ∧ m'.slots.length = m.slots.length ∧
      (∀ i : Word, m'.read 0#32 i = m.read s i) ∧
      (∀ k i : Word, k ≠ 0#32 → m'.read k i = m.read k i) ∧
      (∀ (i v : Word) (m2 : Memory), m'.write s i v = .ok m2 → ∀ j : Word, m2.read 0#32 j = m.read s j) ∧
      (∀ (i v : Word) (m2 : Memory), m'.write 0#32 i v = .ok m2 → ∀ j : Word, m2.read s j = m.read s j))

/-- R50: a write changes no word but the one written, in its own segment or in another; a segment just allocated
reads 0 at every index it has, whatever was there before, and no other segment changes. -/
def Obligations.SegmentsNeverAlias : Prop :=
  (∀ (m m' : Memory) (s i v : Word), m.wf = true → m.write s i v = .ok m' →
    m'.read s i = .ok v ∧ ∀ k j : Word, (k, j) ≠ (s, i) → m'.read k j = m.read k j) ∧
  (∀ (m m' : Memory) (n id : Word), m.Inv → m.alloc n = .ok (id, m') →
    (∀ i : Word, i.toNat < n.toNat → m'.read id i = .ok 0#32) ∧
    (∀ k i : Word, k ≠ id → m'.read k i = m.read k i))

/-- R49: an allocation never returns 0, and from a machine just booted, with no frees, successive allocations give
1, 2, 3 and so on, however many fit the identifier space. -/
def Obligations.FreshIdentifiers : Prop :=
  (∀ (m m' : Memory) (n id : Word), m.Inv → m.alloc n = .ok (id, m') → id ≠ 0#32) ∧
  (∀ (image : List Word) (input : List Byte) (closed : Bool) (limits : List (List LengthRange)) (ns : List Word),
    ns.length < 2 ^ 32 → ∃ m', (State.boot image input closed limits).mem.allocAll ns =
      .ok ((List.range ns.length).map (fun k => BitVec.ofNat 32 (k + 1)), m'))

/-- R42, R44 (derived; the source's "Id reuse is FIFO"): with nothing waiting for reuse, allocating x and y, freeing
x and then y, and allocating twice gives x and then y again. -/
def Obligations.IdentifierReuseIsFifo : Prop :=
  ∀ (m : Memory) (n1 n2 n3 n4 : Word), m.Inv → m.freeq = [] → m.slots.length + 2 ≤ 2 ^ 32 →
    ∃ (x y : Word) (m1 m2 m3 m4 m5 m6 : Memory), m.alloc n1 = .ok (x, m1) ∧ m1.alloc n2 = .ok (y, m2) ∧
      m2.free x = .ok m3 ∧ m3.free y = .ok m4 ∧ m4.alloc n3 = .ok (x, m5) ∧ m5.alloc n4 = .ok (y, m6) ∧ x ≠ y

/-- R41 (derived): a step never removes a slot, adds at most one, and never changes the length of a live segment
other than segment 0; only UNMAP makes a live slot empty, and it makes none but the one it names. -/
def Obligations.SlotsKeepTheirLengths : Prop :=
  ∀ (i : Instr) (s t : State), s.Inv → exec i s = .next t →
    s.mem.slots.length ≤ t.mem.slots.length ∧ t.mem.slots.length ≤ s.mem.slots.length + 1 ∧
    ∀ (k : Nat) (g : Segment), k ≠ 0 → s.mem.slots[k]? = some (.live g) →
      (∃ g', t.mem.slots[k]? = some (.live g') ∧ g'.len = g.len) ∨
      (t.mem.slots[k]? = some .empty ∧ ∃ c, i = .unmap c ∧ s.regs[c].toNat = k)

/-- R205: a write to segment 0 by SSTORE, or its replacement by LOADP, is seen by the very next fetch. -/
def Obligations.NextFetchSeesTheStore : Prop :=
  (∀ (a b c : RegIdx) (s : State) (g : Segment), s.mem.wf = true → s.mem.slots[0]? = some (.live g) →
    s.regs[a] = 0#32 → s.regs[b] = s.pc + 1#32 → s.regs[b].toNat < g.len →
    ∃ t, exec (.sstore a b c) s = .next t ∧ t.fetch = .ok s.regs[c]) ∧
  (∀ (b c : RegIdx) (s : State) (g : Segment), s.regs[b] ≠ 0#32 →
    s.mem.slots[s.regs[b].toNat]? = some (.live g) →
    ∃ t, exec (.loadp b c) s = .next t ∧ t.pc = s.regs[c] ∧ t.fetch = s.mem.read s.regs[b] s.regs[c])

/-! ## 44_io.md -/

/-- R160: a value up to 255 is emitted as one byte; above, OutputRangeViolation and nothing is emitted. -/
def Obligations.OutRule : Prop :=
  (∀ (reject : Bool) (w : Word), opField w = 10#4 → (reject = true → reservedField w = 0#19) →
    decode reject w = some (.out (cField w))) ∧
  (∀ (c : RegIdx) (s : State), s.regs[c].toNat ≤ 255 → ∃ v : Byte, v.toNat = s.regs[c].toNat ∧
    exec (.out c) s = .next { s with outq := s.outq ++ [v], pc := s.pc + 1#32 }) ∧
  (∀ (c : RegIdx) (s : State), 255 < s.regs[c].toNat →
    exec (.out c) s = .next { s with run := .faulted .outputRangeViolation })

/-- R161: a byte is zero-extended into x[C] and is the one byte consumed; at end of stream x[C] gets all ones, and
the port is still at its end; with nothing offered nothing changes. -/
def Obligations.InRule : Prop :=
  (∀ (reject : Bool) (w : Word), opField w = 11#4 → (reject = true → reservedField w = 0#19) →
    decode reject w = some (.inp (cField w))) ∧
  (∀ (c : RegIdx) (s : State) (v : Byte) (rest : List Byte), s.inq = v :: rest →
    ∃ x : Word, x.toNat = v.toNat ∧
      exec (.inp c) s = .next { s with regs := s.regs.set c x, inq := rest, pc := s.pc + 1#32 }) ∧
  (∀ (c : RegIdx) (s : State), s.inq = [] → s.inClosed = true →
    exec (.inp c) s = .next { s with regs := s.regs.set c 0xFFFFFFFF#32, pc := s.pc + 1#32 }) ∧
  (∀ (c : RegIdx) (s t : State), s.inq = [] → s.inClosed = false → exec (.inp c) s = .next t → t = s)

/-- R162: each step leaves the output as it was or, by an OUT that succeeds, adds exactly the one byte x[C] at its
end; so bytes emitted before a fault stay. -/
def Obligations.OutputGrowsByOut : Prop :=
  ∀ (reject : Bool) (s t : State), stepWith reject s = .next t →
    (t.outq = s.outq ∧ ∀ w c, s.fetch = .ok w → decode reject w = some (.out c) → t.run ≠ .running) ∨
    ∃ (w : Word) (c : RegIdx) (v : Byte), s.fetch = .ok w ∧ decode reject w = some (.out c) ∧ t.run = .running ∧
      v.toNat = s.regs[c].toNat ∧ t.outq = s.outq ++ [v]

/-- R163 (derived): only IN takes input, at most one byte at a step, the first of the stream; no step changes the
end-of-stream mark. -/
def Obligations.InputTakenByIn : Prop :=
  ∀ (i : Instr) (s t : State), exec i s = .next t →
    t.inClosed = s.inClosed ∧ (t.inq = s.inq ∨ ∃ c v, i = .inp c ∧ s.inq = v :: t.inq)

/-- R164: once the input is closed and its bytes are taken, the port offers end of stream ever after, whatever the
host does. -/
def Obligations.EndOfStreamIsSticky : Prop :=
  ∀ (reject : Bool) (s t : State), s.inq = [] → s.inClosed = true → Reaches reject s t →
    t.offer = .eof ∧ t.inq = [] ∧ t.inClosed = true

/-! ## 45_load.md -/

/-- R170: with x[B] = 0 a plain jump to x[C] and no copy; with x[B] a live segment, segment 0 becomes its copy and
pc goes to x[C]; with x[B] no live segment, InvalidSegment, segment 0 and pc unchanged. -/
def Obligations.LoadpRule : Prop :=
  (∀ (reject : Bool) (w : Word), opField w = 12#4 → (reject = true → reservedField w = 0#19) →
    decode reject w = some (.loadp (bField w) (cField w))) ∧
  (∀ (b c : RegIdx) (s : State), s.regs[b] = 0#32 → exec (.loadp b c) s = .next { s with pc := s.regs[c] }) ∧
  (∀ (b c : RegIdx) (s : State) (g : Segment), s.regs[b] ≠ 0#32 →
    s.mem.slots[s.regs[b].toNat]? = some (.live g) →
    exec (.loadp b c) s = .next { s with
      mem := { s.mem with slots := s.mem.slots.set 0 (.live g) }, pc := s.regs[c] }) ∧
  (∀ (b c : RegIdx) (s : State), s.regs[b] ≠ 0#32 →
    s.mem.slots.length ≤ s.regs[b].toNat ∨ s.mem.slots[s.regs[b].toNat]? = some .empty →
    exec (.loadp b c) s = .next { s with run := .faulted .invalidSegment })

/-- R171: LOADV writes the zero-extended immediate, at every value the field admits. -/
def Obligations.LoadvRule : Prop :=
  (∀ (reject : Bool) (w : Word), opField w = 13#4 →
    decode reject w = some (.loadv (immRegField w) (w.toNat % 2 ^ 25))) ∧
  (∀ (a : RegIdx) (imm : Nat) (s : State), imm < 2 ^ 25 → ∃ v : Word, v.toNat = imm ∧
    exec (.loadv a imm) s = .next { s with regs := s.regs.set a v, pc := s.pc + 1#32 })

/-! ## 60_exceptions.md -/

/-- R181: the codes, and what each cause is raised by and when. -/
def Obligations.FaultCauses : Prop :=
  (Cause.code .malformedProgram = 1#4 ∧ Cause.code .invalidSegment = 2#4 ∧ Cause.code .outOfBounds = 3#4 ∧
    Cause.code .divisionByZero = 4#4 ∧ Cause.code .outputRangeViolation = 5#4 ∧
    Cause.code .resourceExhausted = 6#4) ∧
  ∀ (reject : Bool) (s t : State), s.Inv → stepWith reject s = .next t →
    (t.run = .faulted .malformedProgram → ∃ w, s.fetch = .ok w ∧
      (14 ≤ (opField w).toNat ∨ (reject = true ∧ (opField w).toNat ≤ 12 ∧ reservedField w ≠ 0#19))) ∧
    (t.run = .faulted .invalidSegment → ∃ w i, s.fetch = .ok w ∧ decode reject w = some i ∧
      ((∃ a b c, i = .sload a b c ∧ s.mem.live? s.regs[b] = none) ∨
       (∃ a b c, i = .sstore a b c ∧ s.mem.live? s.regs[a] = none) ∨
       (∃ c, i = .unmap c ∧ (s.regs[c] = 0#32 ∨ s.mem.live? s.regs[c] = none)) ∨
       (∃ b c, i = .loadp b c ∧ s.regs[b] ≠ 0#32 ∧ s.mem.live? s.regs[b] = none))) ∧
    (t.run = .faulted .outOfBounds →
      (∃ g, s.mem.live? 0#32 = some g ∧ g.len ≤ s.pc.toNat) ∨
      ∃ w i, s.fetch = .ok w ∧ decode reject w = some i ∧
        ((∃ a b c g, i = .sload a b c ∧ s.mem.live? s.regs[b] = some g ∧ g.len ≤ s.regs[c].toNat) ∨
         (∃ a b c g, i = .sstore a b c ∧ s.mem.live? s.regs[a] = some g ∧ g.len ≤ s.regs[b].toNat))) ∧
    (t.run = .faulted .divisionByZero → ∃ w a b c, s.fetch = .ok w ∧
      decode reject w = some (.div a b c) ∧ s.regs[c] = 0#32) ∧
    (t.run = .faulted .outputRangeViolation → ∃ w c, s.fetch = .ok w ∧
      decode reject w = some (.out c) ∧ 255 < s.regs[c].toNat) ∧
    (t.run = .faulted .resourceExhausted → ∃ w b c, s.fetch = .ok w ∧
      decode reject w = some (.map b c) ∧
      (s.memCapacity s.regs[c] = false ∨ (s.mem.freeq = [] ∧ 2 ^ 32 ≤ s.mem.slots.length)))

/-- R183: faults are precise. A step that faults changes the run state and nothing else. -/
def Obligations.FaultsArePrecise : Prop :=
  ∀ (reject : Bool) (s t : State) (cause : Cause), stepWith reject s = .next t → t.run = .faulted cause →
    s.run = .running ∧ t = { s with run := .faulted cause }

/-- R24, R150 (derived): a step comes to Halted only by HALT, which changes the run state and nothing else. -/
def Obligations.HaltedOnlyByHalt : Prop :=
  ∀ (reject : Bool) (s t : State), stepWith reject s = .next t → t.run = .halted →
    (∃ w, s.fetch = .ok w ∧ decode reject w = some .halt) ∧ t = { s with run := .halted }

/-- R186, R192, R110 (derived): Halted and Faulted are final. Whatever the host does to the input port, the run state
and the observation of the run stay. -/
def Obligations.TerminalStatesAreFinal : Prop :=
  ∀ (reject : Bool) (s t : State), s.run ≠ .running → Reaches reject s t → t.observation = s.observation

/-! ## 10_state.md and 70_reset_and_hazards.md -/

/-- R25: STATUS. -/
def Obligations.StatusOutput : Prop :=
  ∀ (reject : Bool) (s : State),
    (s.run = .halted → (s.status reject).toNat = 2) ∧
    (∀ cause, s.run = .faulted cause → (s.status reject).toNat = 16 * cause.code.toNat + 3 ∧
      1 ≤ cause.code.toNat ∧ cause.code.toNat ≤ 6) ∧
    (s.run = .running → ∀ w c, s.mem.read 0#32 s.pc = .ok w → decode reject w = some (.inp c) → s.inq = [] →
      s.inClosed = false → (s.status reject).toNat = 1) ∧
    (s.run = .running →
      (s.inq ≠ [] ∨ s.inClosed = true ∨
        ∀ w c, s.mem.read 0#32 s.pc = .ok w → decode reject w ≠ some (.inp c)) →
      (s.status reject).toNat = 0) ∧
    (State.reset.status reject).toNat = 0

/-- What reset leaves (derived, 70_reset_and_hazards.md R200): for every program image and every input stream, what
R200 says; and of `State.reset` the same, but for the input stream. That slot 0 of `State.reset` has length 0 is the
model's choice, log entry 7: it has the empty image, where R200 gives Live(P) for the image loaded. -/
def Obligations.ResetState : Prop :=
  ((∀ k : RegIdx, State.reset.regs[k] = 0#32) ∧ State.reset.pc = 0#32 ∧ State.reset.run = .running ∧
    State.reset.mem.freeq = [] ∧ State.reset.outq = [] ∧
    State.reset.mem.slots = [.live { len := 0, cells := [] }]) ∧
  ∀ (image : List Word) (input : List Byte) (closed : Bool) (limits : List (List LengthRange)),
    let s := State.boot image input closed limits
    (∀ k : RegIdx, s.regs[k] = 0#32) ∧ s.pc = 0#32 ∧ s.run = .running ∧ s.mem.freeq = [] ∧ s.outq = [] ∧
    s.inq = input ∧ s.inClosed = closed ∧
    ∃ g, s.mem.slots = [.live g] ∧ g.len = image.length ∧
      ∀ i, (h : i < image.length) → g.get i = image[i]

/-- R201: the program image of a file, big-endian, and its rejection, with MalformedProgram, where the length is no
multiple of 4. -/
def Obligations.LoaderIsBigEndian : Prop :=
  (∀ f : List Byte, f.length % 4 = 0 → ∃ p, imageOfBytes f = .ok p ∧ p.length = f.length / 4 ∧
    ∀ k, (h : k < p.length) → ∃ b0 b1 b2 b3 : Byte, f[4 * k]? = some b0 ∧ f[4 * k + 1]? = some b1 ∧
      f[4 * k + 2]? = some b2 ∧ f[4 * k + 3]? = some b3 ∧
      p[k].toNat = (b0.toNat <<< 24) + (b1.toNat <<< 16) + (b2.toNat <<< 8) + b3.toNat) ∧
  (∀ f : List Byte, f.length % 4 ≠ 0 → imageOfBytes f = .error .malformedProgram)

/-- R202: the empty program faults OutOfBounds at its first fetch. -/
def Obligations.EmptyProgramFaults : Prop :=
  imageOfBytes [] = .ok [] ∧
  ∀ (reject : Bool) (input : List Byte) (closed : Bool) (limits : List (List LengthRange)),
    (State.boot [] input closed limits).mem.slots = [.live { len := 0, cells := [] }] ∧
    stepWith reject (State.boot [] input closed limits) =
      .next { State.boot [] input closed limits with run := .faulted .outOfBounds }

/-! ## The invariant -/

/-- Reset meets the invariant. -/
def Obligations.ResetMeetsInvariant : Prop := State.reset.Inv

/-- Reset with any image of at most 2^32 - 1 words meets the invariant. -/
def Obligations.BootMeetsInvariant : Prop :=
  ∀ (image : List Word) (input : List Byte) (closed : Bool) (limits : List (List LengthRange)),
    image.length < 2 ^ 32 → (State.boot image input closed limits).Inv

/-- Every step keeps the invariant: the segment memory's canonical form, slot 0 live, the free-id queue exactly the
identifiers of the empty slots without repeats, and the bounds of identifiers and lengths. -/
def Obligations.StepKeepsInvariant : Prop :=
  (∀ (reject : Bool) (s t : State), s.Inv → stepWith reject s = .next t → t.Inv) ∧
  (∀ s t : State, s.Inv → Sys2Proof.Machine.step s = .next t → t.Inv)

/-- R43: in every run of every program, under whatever the host does, slot 0 holds a live segment. -/
def Obligations.SlotZeroAlwaysLive : Prop :=
  ∀ (reject : Bool) (image : List Word) (input : List Byte) (closed : Bool) (limits : List (List LengthRange)) (t : State),
    image.length < 2 ^ 32 → Reaches reject (State.boot image input closed limits) t →
    ∃ g, t.mem.slots[0]? = some (.live g)

/-- R42: in every state that meets the invariant, every identifier in freeq names an Empty slot, and 0 is not one;
a free puts its identifier at the back and an allocation takes the front one. -/
def Obligations.FreeQueueHoldsEmptySlots : Prop :=
  (∀ m : Memory, m.Inv → ∀ id ∈ m.freeq, m.slots[id.toNat]? = some .empty ∧ id ≠ 0#32) ∧
  (∀ (m m' : Memory) (s : Word), m.free s = .ok m' → m'.freeq = m.freeq ++ [s]) ∧
  (∀ (m m' : Memory) (n id x : Word) (rest : List Word), m.freeq = x :: rest → m.alloc n = .ok (id, m') →
    id = x ∧ m'.freeq = rest)
end

