-- ==== Sys2Proof/Laws/Decode.lean ====
section
/-! SUPPORT. Each field of a word as a number, and the fields of an encoded word. -/

namespace Sys2Proof

variable (w : Word)

theorem opField_toNat : (opField w).toNat = w.toNat / 2 ^ 28 := by
  simp [opField, Nat.shiftRight_eq_div_pow]
  omega

theorem reservedField_toNat : (reservedField w).toNat = w.toNat / 2 ^ 9 % 2 ^ 19 := by
  simp [reservedField, Nat.shiftRight_eq_div_pow]

theorem aField_val : (aField w).val = w.toNat / 2 ^ 6 % 8 := by
  simp [aField, Nat.shiftRight_eq_div_pow]

theorem bField_val : (bField w).val = w.toNat / 2 ^ 3 % 8 := by
  simp [bField, Nat.shiftRight_eq_div_pow]

theorem cField_val : (cField w).val = w.toNat % 8 := by
  simp [cField]

theorem immRegField_val : (immRegField w).val = w.toNat / 2 ^ 25 % 8 := by
  simp [immRegField, Nat.shiftRight_eq_div_pow]

theorem immField_toNat : (immField w).toNat = w.toNat % 2 ^ 25 := by
  simp [immField]

theorem encodeThreeRegister_toNat (op : BitVec 4) (a b c : RegIdx) :
    (encodeThreeRegister op a b c).toNat = op.toNat * 2 ^ 28 + a.val * 2 ^ 6 + b.val * 2 ^ 3 + c.val := by
  have := op.isLt
  simp only [encodeThreeRegister, BitVec.toNat_ofNat]
  omega

theorem opField_encodeThreeRegister (op : BitVec 4) (a b c : RegIdx) :
    opField (encodeThreeRegister op a b c) = op := by
  apply BitVec.eq_of_toNat_eq
  rw [opField_toNat, encodeThreeRegister_toNat]
  omega

theorem reservedField_encodeThreeRegister (op : BitVec 4) (a b c : RegIdx) :
    reservedField (encodeThreeRegister op a b c) = 0#19 := by
  apply BitVec.eq_of_toNat_eq
  rw [reservedField_toNat, encodeThreeRegister_toNat]
  simp only [BitVec.toNat_ofNat]
  omega

theorem aField_encodeThreeRegister (op : BitVec 4) (a b c : RegIdx) : aField (encodeThreeRegister op a b c) = a := by
  apply Fin.ext
  rw [aField_val, encodeThreeRegister_toNat]
  omega

theorem bField_encodeThreeRegister (op : BitVec 4) (a b c : RegIdx) : bField (encodeThreeRegister op a b c) = b := by
  apply Fin.ext
  rw [bField_val, encodeThreeRegister_toNat]
  omega

theorem cField_encodeThreeRegister (op : BitVec 4) (a b c : RegIdx) : cField (encodeThreeRegister op a b c) = c := by
  apply Fin.ext
  rw [cField_val, encodeThreeRegister_toNat]
  omega

/-- `encode_immediate` succeeds exactly on the values that fit, and its word is not reduced. -/
theorem encodeImmediate_eq_some {a : RegIdx} {value : Nat} {w : Word} :
    encodeImmediate a value = some w ↔ value < 2 ^ 25 ∧ w.toNat = 13 * 2 ^ 28 + a.val * 2 ^ 25 + value := by
  unfold encodeImmediate immediateFits
  by_cases h : value < 2 ^ 25
  · rw [if_pos (decide_eq_true h), Option.some.injEq]
    have hlt : 13 * 2 ^ 28 + a.val * 2 ^ 25 + value < 2 ^ 32 := by omega
    constructor
    · rintro rfl
      exact ⟨h, by rw [BitVec.toNat_ofNat, Nat.mod_eq_of_lt hlt]⟩
    · rintro ⟨-, hw⟩
      apply BitVec.eq_of_toNat_eq
      rw [BitVec.toNat_ofNat, Nat.mod_eq_of_lt hlt, hw]
  · simp only [h, decide_false, Bool.false_eq_true, if_false, reduceCtorEq, false_and]

/-- The decoder's four verdicts (30_encoding.md R75). -/
theorem decodeFields_cases (reject : Bool) (w : Word) :
    (opField w = 13#4 ∧ decodeFields reject w = .loadImm (immRegField w) (immField w)) ∨
    ((opField w = 14#4 ∨ opField w = 15#4) ∧ decodeFields reject w = .invalid (opField w)) ∨
    ((opField w).toNat ≤ 12 ∧ reject = true ∧ reservedField w ≠ 0#19 ∧
      decodeFields reject w = .invalid (opField w)) ∨
    ((opField w).toNat ≤ 12 ∧ (reject = true → reservedField w = 0#19) ∧
      decodeFields reject w = .threeReg (opField w) (aField w) (bField w) (cField w)) := by
  by_cases h13 : opField w = 13#4
  · exact .inl ⟨h13, by rw [decodeFields, if_pos h13]⟩
  · by_cases h14 : opField w = 14#4 ∨ opField w = 15#4
    · exact .inr (.inl ⟨h14, by rw [decodeFields, if_neg h13, if_pos h14]⟩)
    · have hle : (opField w).toNat ≤ 12 := by
        rw [not_or] at h14
        have h1 : (opField w).toNat ≠ 13 := fun e => h13 (BitVec.eq_of_toNat_eq e)
        have h2 : (opField w).toNat ≠ 14 := fun e => h14.1 (BitVec.eq_of_toNat_eq e)
        have h3 : (opField w).toNat ≠ 15 := fun e => h14.2 (BitVec.eq_of_toNat_eq e)
        have := (opField w).isLt
        omega
      by_cases hr : reject = true ∧ reservedField w ≠ 0#19
      · exact .inr (.inr (.inl ⟨hle, hr.1, hr.2, by rw [decodeFields, if_neg h13, if_neg h14, if_pos hr]⟩))
      · refine .inr (.inr (.inr ⟨hle, ?_, by rw [decodeFields, if_neg h13, if_neg h14, if_neg hr]⟩))
        intro hrej
        by_contra hne
        exact hr ⟨hrej, hne⟩

end Sys2Proof
end

