-- ==== Sys2Proof/Laws/Memory.lean ====
section
/-! SUPPORT. The laws of the segment memory: read after write, the canonical form, what each operation does, and
that each keeps the invariant. -/

namespace Sys2Proof.Machine

/-! ### Cells -/

theorem cellsWf_cons {len lo i : Nat} {v : Word} {rest : List (Nat × Word)} :
    cellsWf len lo ((i, v) :: rest) = true ↔ lo ≤ i ∧ i < len ∧ v ≠ 0#32 ∧ cellsWf len (i + 1) rest = true := by
  simp [cellsWf, and_assoc]

theorem cellsWf_mono {len lo lo' : Nat} {cs : List (Nat × Word)} (h : cellsWf len lo cs = true) (hl : lo' ≤ lo) :
    cellsWf len lo' cs = true := by
  cases cs with
  | nil => rfl
  | cons c rest =>
    obtain ⟨h1, h2, h3, h4⟩ := cellsWf_cons.mp h
    exact cellsWf_cons.mpr ⟨by omega, h2, h3, h4⟩

theorem cellsWf_len_mono {len len' lo : Nat} {cs : List (Nat × Word)} (h : cellsWf len lo cs = true)
    (hl : len ≤ len') : cellsWf len' lo cs = true := by
  induction cs generalizing lo with
  | nil => rfl
  | cons c rest ih =>
    obtain ⟨h1, h2, h3, h4⟩ := cellsWf_cons.mp h
    exact cellsWf_cons.mpr ⟨h1, by omega, h3, ih h4⟩

/-- Below the lowest index a canonical list reads 0. -/
theorem lookupCell_of_lt {len lo j : Nat} {cs : List (Nat × Word)} (h : cellsWf len lo cs = true) (hj : j < lo) :
    lookupCell cs j = 0#32 := by
  induction cs generalizing lo with
  | nil => rfl
  | cons c rest ih =>
    obtain ⟨h1, -, -, h4⟩ := cellsWf_cons.mp h
    have : c.1 ≠ j := by omega
    simp only [lookupCell, if_neg this]
    exact ih h4 (by omega)

/-- At and above its length a canonical list reads 0. -/
theorem lookupCell_of_ge {len lo j : Nat} {cs : List (Nat × Word)} (h : cellsWf len lo cs = true) (hj : len ≤ j) :
    lookupCell cs j = 0#32 := by
  induction cs generalizing lo with
  | nil => rfl
  | cons c rest ih =>
    obtain ⟨-, h2, -, h4⟩ := cellsWf_cons.mp h
    have : c.1 ≠ j := by omega
    simp only [lookupCell, if_neg this]
    exact ih h4

/-- Read after write, at the index written and at every other. -/
theorem lookupCell_storeCell {len lo i : Nat} {cs : List (Nat × Word)} {v : Word} (h : cellsWf len lo cs = true)
    (j : Nat) : lookupCell (storeCell cs i v) j = if j = i then v else lookupCell cs j := by
  induction cs generalizing lo with
  | nil => by_cases hv : v = 0#32 <;> simp [storeCell, lookupCell, hv, eq_comm]
  | cons c rest ih =>
    obtain ⟨k, u⟩ := c
    obtain ⟨h1, -, -, h4⟩ := cellsWf_cons.mp h
    by_cases hik : i < k
    · have hi : lookupCell rest i = 0#32 := lookupCell_of_lt h4 (by omega)
      by_cases hv : v = 0#32 <;> by_cases hj : j = i
      all_goals simp [storeCell, lookupCell, hik, hv, hj, hi, eq_comm (a := i)]
      all_goals omega
    · by_cases hik' : i = k
      · subst hik'
        have hi : lookupCell rest i = 0#32 := lookupCell_of_lt h4 (by omega)
        by_cases hv : v = 0#32 <;> by_cases hj : j = i
        all_goals simp [storeCell, lookupCell, hv, hj, hi, eq_comm (a := i)]
      · simp only [storeCell, if_neg hik, if_neg hik', lookupCell, ih h4]
        by_cases hj : j = i
        · have : k ≠ j := by omega
          simp [hj, show k ≠ i by omega]
        · simp [hj]

/-- A write within bounds keeps the canonical form. -/
theorem cellsWf_storeCell {len lo i : Nat} {cs : List (Nat × Word)} {v : Word} (h : cellsWf len lo cs = true)
    (hlo : lo ≤ i) (hi : i < len) : cellsWf len lo (storeCell cs i v) = true := by
  induction cs generalizing lo with
  | nil => by_cases hv : v = 0#32 <;> simp [storeCell, cellsWf, hv, hlo, hi]
  | cons c rest ih =>
    obtain ⟨k, u⟩ := c
    obtain ⟨h1, h2, h3, h4⟩ := cellsWf_cons.mp h
    by_cases hik : i < k
    · by_cases hv : v = 0#32
      · simpa [storeCell, hik, hv] using h
      · simp only [storeCell, if_pos hik, if_neg hv]
        exact cellsWf_cons.mpr ⟨hlo, hi, hv, cellsWf_cons.mpr ⟨by omega, h2, h3, h4⟩⟩
    · by_cases hik' : i = k
      · subst hik'
        by_cases hv : v = 0#32
        · simpa [storeCell, hv] using cellsWf_mono h4 (by omega)
        · simp only [storeCell, lt_irrefl, if_false, if_true, if_neg hv]
          exact cellsWf_cons.mpr ⟨hlo, hi, hv, h4⟩
      · simp only [storeCell, if_neg hik, if_neg hik']
        exact cellsWf_cons.mpr ⟨h1, h2, h3, ih h4 (by omega)⟩

/-- The canonical form is canonical: two canonical lists that read alike everywhere are the same list. -/
theorem cells_ext {len lo : Nat} {cs ds : List (Nat × Word)} (hc : cellsWf len lo cs = true)
    (hd : cellsWf len lo ds = true) (h : ∀ j, lookupCell cs j = lookupCell ds j) : cs = ds := by
  induction cs generalizing lo ds with
  | nil =>
    cases ds with
    | nil => rfl
    | cons d rest =>
      obtain ⟨-, -, h3, -⟩ := cellsWf_cons.mp hd
      exact absurd (h d.1).symm (by simpa [lookupCell] using h3)
  | cons c rest ih =>
    obtain ⟨k, u⟩ := c
    obtain ⟨c1, c2, c3, c4⟩ := cellsWf_cons.mp hc
    cases ds with
    | nil => exact absurd (h k) (by simpa [lookupCell] using c3)
    | cons d rest' =>
      obtain ⟨l, w⟩ := d
      obtain ⟨d1, d2, d3, d4⟩ := cellsWf_cons.mp hd
      have hkl : k = l := by
        rcases Nat.lt_trichotomy k l with hlt | heq | hgt
        · have := h k
          rw [lookupCell, if_pos rfl, lookupCell, if_neg (by omega), lookupCell_of_lt d4 (by omega)] at this
          exact absurd this c3
        · exact heq
        · have := h l
          rw [lookupCell, if_neg (by omega), lookupCell, if_pos rfl, lookupCell_of_lt c4 (by omega)] at this
          exact absurd this.symm d3
      subst hkl
      have huw : u = w := by simpa [lookupCell] using h k
      subst huw
      have hrest : rest = rest' := by
        refine ih c4 d4 fun j => ?_
        have hj := h j
        by_cases hjk : j = k
        · rw [lookupCell_of_lt c4 (by omega), lookupCell_of_lt d4 (by omega)]
        · simpa [lookupCell, Ne.symm hjk] using hj
      rw [hrest]

theorem cellsWf_cellsFrom (k : Nat) (ws : List Word) : cellsWf (k + ws.length) k (cellsFrom k ws) = true := by
  induction ws generalizing k with
  | nil => rfl
  | cons w ws ih =>
    have hrest : cellsWf (k + (w :: ws).length) (k + 1) (cellsFrom (k + 1) ws) = true := by
      have := ih (k + 1)
      rwa [show k + 1 + ws.length = k + (w :: ws).length by simp; omega] at this
    by_cases hw : w = 0#32
    · simpa [cellsFrom, hw] using cellsWf_mono hrest (by omega)
    · simp only [cellsFrom, if_neg hw]
      exact cellsWf_cons.mpr ⟨le_refl k, by simp, hw, hrest⟩

theorem lookupCell_cellsFrom (k : Nat) (ws : List Word) (i : Nat) :
    lookupCell (cellsFrom k ws) (k + i) = ws[i]?.getD 0#32 := by
  induction ws generalizing k i with
  | nil => simp [cellsFrom, lookupCell]
  | cons w ws ih =>
    have hlow : lookupCell (cellsFrom (k + 1) ws) k = 0#32 := lookupCell_of_lt (cellsWf_cellsFrom (k + 1) ws) (by omega)
    cases i with
    | zero => by_cases hw : w = 0#32 <;> simp [cellsFrom, lookupCell, hw, hlow]
    | succ i =>
      have := ih (k + 1) i
      rw [show k + 1 + i = k + (i + 1) by omega] at this
      by_cases hw : w = 0#32 <;> simp [cellsFrom, lookupCell, hw, this]

/-! ### Segments -/

namespace Segment

@[simp] theorem zeros_len (n : Nat) : (zeros n).len = n := rfl
@[simp] theorem zeros_get (n i : Nat) : (zeros n).get i = 0#32 := rfl
@[simp] theorem zeros_wf (n : Nat) : (zeros n).wf = true := rfl
@[simp] theorem put_len (g : Segment) (i : Nat) (v : Word) : (g.put i v).len = g.len := rfl
@[simp] theorem ofWords_len (ws : List Word) : (ofWords ws).len = ws.length := rfl

@[simp] theorem ofWords_get (ws : List Word) (i : Nat) : (ofWords ws).get i = ws[i]?.getD 0#32 := by
  simpa [ofWords, get] using lookupCell_cellsFrom 0 ws i

@[simp] theorem ofWords_wf (ws : List Word) : (ofWords ws).wf = true := by
  simpa [ofWords, wf] using cellsWf_cellsFrom 0 ws

theorem get_put {g : Segment} (h : g.wf = true) (i j : Nat) (v : Word) :
    (g.put i v).get j = if j = i then v else g.get j := lookupCell_storeCell h j

theorem put_wf {g : Segment} (h : g.wf = true) {i : Nat} (hi : i < g.len) (v : Word) : (g.put i v).wf = true :=
  cellsWf_storeCell h (Nat.zero_le i) hi

theorem ext_of_get {g h : Segment} (hg : g.wf = true) (hh : h.wf = true) (hlen : g.len = h.len)
    (hget : ∀ i, g.get i = h.get i) : g = h := by
  obtain ⟨n, cs⟩ := g
  obtain ⟨n', ds⟩ := h
  obtain rfl : n = n' := hlen
  exact congrArg (Segment.mk n) (cells_ext hg hh hget)

end Segment

/-! ### What each operation does -/

namespace Memory

variable {m m' : Memory} {s i v n id : Word} {c : Cause}

theorem live?_eq_some {g : Segment} : m.live? s = some g ↔ m.slots[s.toNat]? = some (.live g) := by
  unfold live?
  split <;> simp_all

theorem live?_eq_none : m.live? s = none ↔ m.slots[s.toNat]? = some .empty ∨ m.slots[s.toNat]? = none := by
  unfold live?
  split <;> simp_all

theorem wf_iff : m.wf = true ↔ ∀ (k : Nat) (g : Segment), m.slots[k]? = some (.live g) → g.wf = true := by
  unfold wf
  rw [List.all_eq_true]
  constructor
  · intro h k g hk
    exact h _ (List.mem_of_getElem? hk)
  · intro h x hx
    obtain ⟨k, hk⟩ := List.getElem?_of_mem hx
    cases x with
    | live g => exact h k g hk
    | empty => rfl

theorem read_live {g : Segment} (h : m.live? s = some g) :
    m.read s i = if g.len ≤ i.toNat then .error .outOfBounds else .ok (g.get i.toNat) := by
  simp [read, h]

theorem read_dead (h : m.live? s = none) : m.read s i = .error .invalidSegment := by simp [read, h]

theorem read_eq_ok {w : Word} :
    m.read s i = .ok w ↔ ∃ g, m.live? s = some g ∧ i.toNat < g.len ∧ w = g.get i.toNat := by
  unfold read
  cases h : m.live? s with
  | none => simp
  | some g =>
    by_cases hi : g.len ≤ i.toNat
    · simp [hi]
    · simp [hi, Nat.lt_of_not_le hi, eq_comm]

theorem read_eq_error :
    m.read s i = .error c ↔ (m.live? s = none ∧ c = .invalidSegment) ∨
      ∃ g, m.live? s = some g ∧ g.len ≤ i.toNat ∧ c = .outOfBounds := by
  unfold read
  cases h : m.live? s with
  | none => simp [eq_comm]
  | some g =>
    by_cases hi : g.len ≤ i.toNat
    · simp [hi, eq_comm]
    · simp [hi]

theorem write_eq_ok :
    m.write s i v = .ok m' ↔ ∃ g, m.live? s = some g ∧ i.toNat < g.len ∧
      m' = { m with slots := m.slots.set s.toNat (.live (g.put i.toNat v)) } := by
  unfold write
  cases h : m.live? s with
  | none => simp
  | some g =>
    by_cases hi : g.len ≤ i.toNat
    · simp [hi]
    · simp [hi, Nat.lt_of_not_le hi, eq_comm]

theorem write_eq_error :
    m.write s i v = .error c ↔ (m.live? s = none ∧ c = .invalidSegment) ∨
      ∃ g, m.live? s = some g ∧ g.len ≤ i.toNat ∧ c = .outOfBounds := by
  unfold write
  cases h : m.live? s with
  | none => simp [eq_comm]
  | some g =>
    by_cases hi : g.len ≤ i.toNat
    · simp [hi, eq_comm]
    · simp [hi]

theorem alloc_eq_ok :
    m.alloc n = .ok (id, m') ↔
      (∃ rest, m.freeq = id :: rest ∧
        m' = { slots := m.slots.set id.toNat (.live (.zeros n.toNat)), freeq := rest }) ∨
      (m.freeq = [] ∧ m.slots.length < 2 ^ 32 ∧ id = BitVec.ofNat 32 m.slots.length ∧
        m' = { m with slots := m.slots ++ [.live (.zeros n.toNat)] }) := by
  unfold alloc Config.idSpace
  cases h : m.freeq with
  | nil =>
    by_cases hs : 2 ^ 32 ≤ m.slots.length
    · rw [if_pos hs]
      have : ¬ m.slots.length < 2 ^ 32 := by omega
      simp only [this, reduceCtorEq, false_and, and_false, exists_false, or_self]
    · rw [if_neg hs]
      have : m.slots.length < 2 ^ 32 := by omega
      simp only [this, Except.ok.injEq, Prod.mk.injEq, reduceCtorEq, false_and, exists_false, true_and, false_or]
      exact and_congr eq_comm eq_comm
  | cons x rest =>
    simp only [Except.ok.injEq, Prod.mk.injEq, List.cons.injEq, reduceCtorEq, false_and, or_false]
    constructor
    · rintro ⟨rfl, rfl⟩
      exact ⟨rest, ⟨rfl, rfl⟩, rfl⟩
    · rintro ⟨r, ⟨rfl, rfl⟩, rfl⟩
      exact ⟨rfl, rfl⟩

theorem alloc_eq_error :
    m.alloc n = .error c ↔ m.freeq = [] ∧ 2 ^ 32 ≤ m.slots.length ∧ c = .resourceExhausted := by
  unfold alloc Config.idSpace
  cases h : m.freeq with
  | nil =>
    by_cases hs : 2 ^ 32 ≤ m.slots.length
    · rw [if_pos hs]
      simp only [hs, Except.error.injEq, true_and, eq_comm]
    · rw [if_neg hs]
      simp only [hs, reduceCtorEq, false_and, and_false]
  | cons x rest => simp

theorem free_eq_ok :
    m.free s = .ok m' ↔ s ≠ 0#32 ∧ ∃ g, m.live? s = some g ∧
      m' = { slots := m.slots.set s.toNat .empty, freeq := m.freeq ++ [s] } := by
  unfold free
  by_cases hs : s = 0#32
  · simp [hs]
  · cases h : m.live? s with
    | none => simp [hs]
    | some g => simp [hs, eq_comm]

theorem free_eq_error :
    m.free s = .error c ↔ (s = 0#32 ∨ m.live? s = none) ∧ c = .invalidSegment := by
  unfold free
  by_cases hs : s = 0#32
  · simp [hs, eq_comm]
  · cases h : m.live? s with
    | none => simp [hs, eq_comm]
    | some g => simp [hs]

theorem load0_eq_ok :
    m.load0 s = .ok m' ↔ (s = 0#32 ∧ m' = m) ∨
      (s ≠ 0#32 ∧ ∃ g, m.live? s = some g ∧ m' = { m with slots := m.slots.set 0 (.live g) }) := by
  unfold load0
  by_cases hs : s = 0#32
  · simp [hs, eq_comm]
  · cases h : m.live? s with
    | none => simp [hs]
    | some g => simp [hs, eq_comm]

theorem load0_eq_error : m.load0 s = .error c ↔ s ≠ 0#32 ∧ m.live? s = none ∧ c = .invalidSegment := by
  unfold load0
  by_cases hs : s = 0#32
  · simp [hs]
  · cases h : m.live? s with
    | none => simp [hs, eq_comm]
    | some g => simp [hs]

/-! ### The canonical form and the invariant are kept -/

theorem wf_set {k : Nat} {slot : Slot} (h : m.wf = true) (hs : slot.wf = true) (q : List Word) :
    Memory.wf { slots := m.slots.set k slot, freeq := q } = true := by
  rw [wf, List.all_eq_true] at h ⊢
  intro x hx
  rcases List.mem_or_eq_of_mem_set hx with hx | rfl
  · exact h x hx
  · exact hs

theorem wf_append {slot : Slot} (h : m.wf = true) (hs : slot.wf = true) (q : List Word) :
    Memory.wf { slots := m.slots ++ [slot], freeq := q } = true := by
  simp only [wf, List.all_append, Bool.and_eq_true] at h ⊢
  exact ⟨h, by simpa using hs⟩

theorem live_wf_of_wf {g : Segment} (h : m.wf = true) (hg : m.live? s = some g) : g.wf = true :=
  wf_iff.mp h _ g (live?_eq_some.mp hg)

theorem write_wf (h : m.wf = true) (hw : m.write s i v = .ok m') : m'.wf = true := by
  obtain ⟨g, hg, hi, rfl⟩ := write_eq_ok.mp hw
  exact wf_set h (slot := .live _) (Segment.put_wf (live_wf_of_wf h hg) hi v) _

theorem alloc_wf (h : m.wf = true) (ha : m.alloc n = .ok (id, m')) : m'.wf = true := by
  rcases alloc_eq_ok.mp ha with ⟨rest, -, rfl⟩ | ⟨-, -, -, rfl⟩
  · exact wf_set h (slot := .live _) (Segment.zeros_wf _) _
  · exact wf_append h (slot := .live _) (Segment.zeros_wf _) _

theorem free_wf (h : m.wf = true) (hf : m.free s = .ok m') : m'.wf = true := by
  obtain ⟨-, g, -, rfl⟩ := free_eq_ok.mp hf
  exact wf_set h (slot := .empty) rfl _

theorem load0_wf (h : m.wf = true) (hl : m.load0 s = .ok m') : m'.wf = true := by
  rcases load0_eq_ok.mp hl with ⟨-, rfl⟩ | ⟨-, g, hg, rfl⟩
  · exact h
  · exact wf_set h (slot := .live _) (live_wf_of_wf h hg) _

theorem loaderPut_wf (h : m.wf = true) (k : Nat) (w : Word) : (m.loaderPut k w).wf = true := by
  have hg : ((m.live? 0#32).getD (.zeros 0)).wf = true := by
    cases hl : m.live? 0#32 with
    | none => rfl
    | some g => exact live_wf_of_wf h hl
  unfold loaderPut
  generalize (m.live? 0#32).getD (.zeros 0) = g at hg
  have hext : Segment.wf { g with len := max g.len (k + 1) } = true := cellsWf_len_mono hg (Nat.le_max_left _ _)
  have hslot : Slot.wf (.live (Segment.put { g with len := max g.len (k + 1) } k w)) = true :=
    Segment.put_wf hext (show k < max g.len (k + 1) by omega) w
  by_cases he : m.slots.isEmpty = true
  · simp only [he, if_true]
    simpa [wf] using hslot
  · simp only [he, Bool.false_eq_true, if_false]
    exact wf_set h hslot _

/-- A slot's content under a change of one slot. -/
theorem slots_set (l : List Slot) (k j : Nat) (slot : Slot) :
    (l.set k slot)[j]? = if k = j then (if j < l.length then some slot else none) else l[j]? := by
  by_cases h : k = j
  · subst h
    by_cases hk : k < l.length
    · simp [hk]
    · simp [hk]
  · simp [h]

theorem lt_of_live {g : Segment} (h : m.live? s = some g) : s.toNat < m.slots.length := by
  have := live?_eq_some.mp h
  exact (List.getElem?_eq_some_iff.mp this).1

theorem toNat_zero_iff : s.toNat = 0 ↔ s = 0#32 := by
  constructor
  · intro h; exact BitVec.eq_of_toNat_eq h
  · rintro rfl; rfl

theorem toNat_ne {a b : Word} (h : a ≠ b) : a.toNat ≠ b.toNat := fun e => h (BitVec.eq_of_toNat_eq e)

/-- What each identifier names after one slot has changed. -/
theorem live?_set {slot : Slot} {q : List Word} (h : s.toNat < m.slots.length) (k : Word) :
    Memory.live? { slots := m.slots.set s.toNat slot, freeq := q } k =
      if k = s then (match slot with | .live g => some g | .empty => none) else m.live? k := by
  by_cases hk : k = s
  · subst hk
    cases slot <;> simp [live?, h]
  · have : s.toNat ≠ k.toNat := toNat_ne (Ne.symm hk)
    simp [live?, hk, this]

/-- What each identifier names after a slot has been added at the end. -/
theorem live?_append {g : Segment} {q : List Word} (h : m.slots.length < 2 ^ 32) (k : Word) :
    Memory.live? { slots := m.slots ++ [.live g], freeq := q } k =
      if k = BitVec.ofNat 32 m.slots.length then some g else m.live? k := by
  have hl : (BitVec.ofNat 32 m.slots.length).toNat = m.slots.length := by
    rw [BitVec.toNat_ofNat, Nat.mod_eq_of_lt h]
  by_cases hk : k = BitVec.ofNat 32 m.slots.length
  · subst hk
    simp only [live?, hl, List.getElem?_concat_length, if_true]
  · rw [if_neg hk]
    have hne : k.toNat ≠ m.slots.length := fun e => hk (BitVec.eq_of_toNat_eq (by rw [hl, e]))
    rcases Nat.lt_or_gt_of_ne hne with hlt | hgt
    · simp only [live?, List.getElem?_append_left hlt]
    · have h1 : (m.slots ++ [Slot.live g])[k.toNat]? = none :=
        List.getElem?_eq_none (by rw [List.length_append, List.length_singleton]; omega)
      have h2 : m.slots[k.toNat]? = none := List.getElem?_eq_none (by omega)
      simp only [live?, h1, h2]

/-- An identifier whose slot is Empty, or past the last slot, names no live segment. -/
theorem live?_eq_none_of (h : m.slots.length ≤ s.toNat ∨ m.slots[s.toNat]? = some .empty) : m.live? s = none := by
  rw [live?_eq_none]
  rcases h with h | h
  · exact .inr (List.getElem?_eq_none h)
  · exact .inl h

theorem Inv.live_wf {g : Segment} (h : m.Inv) (hg : m.live? s = some g) : g.wf = true :=
  wf_iff.mp h.canonical _ g (live?_eq_some.mp hg)

theorem Inv.zero_not_free (h : m.Inv) : (0#32 : Word) ∉ m.freeq := by
  intro h0
  have := (h.freeEmpty 0#32).mp h0
  obtain ⟨g, hg⟩ := h.zeroLive
  simp [hg] at this

/-- Replacing a live slot by a live segment keeps the invariant. -/
theorem Inv.set_live {k : Nat} {g g' : Segment} (h : m.Inv) (hk : m.slots[k]? = some (.live g)) (hw : g'.wf = true)
    (hl : g'.len < 2 ^ 32) : Memory.Inv { m with slots := m.slots.set k (.live g') } := by
  have hlt : k < m.slots.length := (List.getElem?_eq_some_iff.mp hk).1
  refine ⟨wf_set h.canonical (slot := .live g') hw _, ?_, h.freeNodup, ?_, by simpa using h.slotsBound, ?_⟩
  · obtain ⟨g0, h0⟩ := h.zeroLive
    have h0lt : 0 < m.slots.length := by omega
    by_cases hk0 : k = 0
    · exact ⟨g', by simp [hk0, h0lt]⟩
    · exact ⟨g0, by simp [hk0, h0]⟩
  · intro id
    rw [h.freeEmpty id]
    simp only [slots_set]
    by_cases hid : k = id.toNat
    · subst hid
      rw [hk, if_pos rfl, if_pos hlt]
      simp
    · simp [hid]
  · intro j gj hj
    simp only [slots_set] at hj
    by_cases hkj : k = j
    · subst hkj
      simp only [if_true, hlt, Option.some.injEq, Slot.live.injEq] at hj
      rw [← hj]; exact hl
    · rw [if_neg hkj] at hj
      exact h.lengths j gj hj

theorem write_inv (h : m.Inv) (hw : m.write s i v = .ok m') : m'.Inv := by
  obtain ⟨g, hg, hi, rfl⟩ := write_eq_ok.mp hw
  have hs := live?_eq_some.mp hg
  exact h.set_live hs (Segment.put_wf (h.live_wf hg) hi v) (by simpa using h.lengths _ g hs)

theorem load0_inv (h : m.Inv) (hl : m.load0 s = .ok m') : m'.Inv := by
  rcases load0_eq_ok.mp hl with ⟨-, rfl⟩ | ⟨-, g, hg, rfl⟩
  · exact h
  · obtain ⟨g0, h0⟩ := h.zeroLive
    exact h.set_live h0 (h.live_wf hg) (h.lengths _ g (live?_eq_some.mp hg))

theorem free_inv (h : m.Inv) (hf : m.free s = .ok m') : m'.Inv := by
  obtain ⟨hs0, g, hg, rfl⟩ := free_eq_ok.mp hf
  have hs := live?_eq_some.mp hg
  have hlt := lt_of_live hg
  have hs0' : s.toNat ≠ 0 := fun e => hs0 (toNat_zero_iff.mp e)
  refine ⟨wf_set h.canonical (slot := .empty) rfl _, ?_, ?_, ?_, by simpa using h.slotsBound, ?_⟩
  · obtain ⟨g0, h0⟩ := h.zeroLive
    exact ⟨g0, by simp [hs0', h0]⟩
  · rw [List.nodup_append]
    refine ⟨h.freeNodup, by simp, ?_⟩
    intro a ha b hb
    rw [List.mem_singleton] at hb
    subst hb
    rintro rfl
    have := (h.freeEmpty a).mp ha
    simp [hs] at this
  · intro id
    rw [List.mem_append, h.freeEmpty id, List.mem_singleton]
    simp only [slots_set]
    by_cases hid : id = s
    · subst hid; simp [hlt]
    · have : s.toNat ≠ id.toNat := fun e => hid (BitVec.eq_of_toNat_eq e.symm)
      simp [hid, this]
  · intro j gj hj
    simp only [slots_set] at hj
    by_cases hsj : s.toNat = j
    · rw [if_pos hsj] at hj
      split at hj <;> simp at hj
    · rw [if_neg hsj] at hj
      exact h.lengths j gj hj

theorem alloc_inv (h : m.Inv) (ha : m.alloc n = .ok (id, m')) : m'.Inv := by
  rcases alloc_eq_ok.mp ha with ⟨rest, hq, rfl⟩ | ⟨hq, hlt, rfl, rfl⟩
  · have hnd := h.freeNodup
    rw [hq, List.nodup_cons] at hnd
    have hid : m.slots[id.toNat]? = some .empty := (h.freeEmpty id).mp (by simp [hq])
    have hidlt : id.toNat < m.slots.length := (List.getElem?_eq_some_iff.mp hid).1
    refine ⟨wf_set h.canonical (slot := .live _) (Segment.zeros_wf _) _, ?_, hnd.2, ?_, by simpa using h.slotsBound, ?_⟩
    · obtain ⟨g0, h0⟩ := h.zeroLive
      have hne : id.toNat ≠ 0 := by
        intro e; rw [e, h0] at hid; simp at hid
      exact ⟨g0, by simp [hne, h0]⟩
    · intro x
      simp only [slots_set]
      by_cases hx : x = id
      · subst hx
        simp [hidlt, hnd.1]
      · have hx' : id.toNat ≠ x.toNat := fun e => hx (BitVec.eq_of_toNat_eq e.symm)
        have := h.freeEmpty x
        rw [hq, List.mem_cons] at this
        simpa [hx, hx'] using this
    · intro j gj hj
      simp only [slots_set] at hj
      by_cases hij : id.toNat = j
      · subst hij
        simp only [if_true, hidlt, Option.some.injEq, Slot.live.injEq] at hj
        rw [← hj]; exact n.isLt
      · rw [if_neg hij] at hj
        exact h.lengths j gj hj
  · refine ⟨wf_append h.canonical (slot := .live _) (Segment.zeros_wf _) _, ?_, h.freeNodup, ?_, by simp; omega, ?_⟩
    · obtain ⟨g0, h0⟩ := h.zeroLive
      exact ⟨g0, by rw [List.getElem?_append_left (List.getElem?_eq_some_iff.mp h0).1]; exact h0⟩
    · intro x
      rw [h.freeEmpty x]
      rcases Nat.lt_trichotomy x.toNat m.slots.length with hx | hx | hx
      · rw [List.getElem?_append_left hx]
      · simp [hx]
      · rw [List.getElem?_eq_none (by omega), List.getElem?_eq_none (by simp; omega)]
    · intro j gj hj
      rcases Nat.lt_trichotomy j m.slots.length with hx | hx | hx
      · rw [List.getElem?_append_left hx] at hj
        exact h.lengths j gj hj
      · subst hx
        simp only [List.getElem?_concat_length, Option.some.injEq, Slot.live.injEq] at hj
        rw [← hj]; exact n.isLt
      · rw [List.getElem?_eq_none (by simp; omega)] at hj
        simp at hj

/-- The memory of a booted machine meets the invariant, for an image of at most 2^32 - 1 words. -/
theorem boot_inv (ws : List Word) (h : ws.length < 2 ^ 32) :
    Memory.Inv { slots := [.live (.ofWords ws)], freeq := [] } := by
  refine ⟨by simp [wf, Slot.wf], ⟨_, rfl⟩, List.nodup_nil, ?_, by simp, ?_⟩
  · intro id
    rcases Nat.eq_zero_or_pos id.toNat with h0 | h0
    · simp [h0]
    · rw [List.getElem?_eq_none (by simp only [List.length_singleton]; omega)]
      simp
  · intro k g hk
    rcases Nat.eq_zero_or_pos k with rfl | h0
    · simp only [List.getElem?_cons_zero, Option.some.injEq, Slot.live.injEq] at hk
      rw [← hk]; exact h
    · rw [List.getElem?_eq_none (by simp only [List.length_singleton]; omega)] at hk
      simp at hk

end Memory

end Sys2Proof.Machine
end

