-- ==== Sys2Proof/Laws/State.lean ====
section
/-! SUPPORT. One lemma per field of State per update, and the register file's read-after-write laws. -/

namespace Sys2Proof.Machine.State

variable (s : State)

@[simp] theorem writeReg_regs (i : RegIdx) (v : Word) : (s.writeReg i v).regs = s.regs.set i v := rfl
@[simp] theorem writeReg_pc (i : RegIdx) (v : Word) : (s.writeReg i v).pc = s.pc := rfl
@[simp] theorem writeReg_run (i : RegIdx) (v : Word) : (s.writeReg i v).run = s.run := rfl
@[simp] theorem writeReg_mem (i : RegIdx) (v : Word) : (s.writeReg i v).mem = s.mem := rfl
@[simp] theorem writeReg_outq (i : RegIdx) (v : Word) : (s.writeReg i v).outq = s.outq := rfl
@[simp] theorem writeReg_inq (i : RegIdx) (v : Word) : (s.writeReg i v).inq = s.inq := rfl
@[simp] theorem writeReg_inClosed (i : RegIdx) (v : Word) : (s.writeReg i v).inClosed = s.inClosed := rfl
@[simp] theorem writeReg_memLimits (i : RegIdx) (v : Word) : (s.writeReg i v).memLimits = s.memLimits := rfl

@[simp] theorem jump_regs (target : Word) : (s.jump target).regs = s.regs := rfl
@[simp] theorem jump_pc (target : Word) : (s.jump target).pc = target := rfl
@[simp] theorem jump_run (target : Word) : (s.jump target).run = s.run := rfl
@[simp] theorem jump_mem (target : Word) : (s.jump target).mem = s.mem := rfl
@[simp] theorem jump_outq (target : Word) : (s.jump target).outq = s.outq := rfl
@[simp] theorem jump_inq (target : Word) : (s.jump target).inq = s.inq := rfl
@[simp] theorem jump_inClosed (target : Word) : (s.jump target).inClosed = s.inClosed := rfl
@[simp] theorem jump_memLimits (target : Word) : (s.jump target).memLimits = s.memLimits := rfl

@[simp] theorem advance_regs : s.advance.regs = s.regs := rfl
@[simp] theorem advance_pc : s.advance.pc = BitVec.ofNat 32 (s.pc.toNat + 1) := rfl
@[simp] theorem advance_run : s.advance.run = s.run := rfl
@[simp] theorem advance_mem : s.advance.mem = s.mem := rfl
@[simp] theorem advance_outq : s.advance.outq = s.outq := rfl
@[simp] theorem advance_inq : s.advance.inq = s.inq := rfl
@[simp] theorem advance_inClosed : s.advance.inClosed = s.inClosed := rfl
@[simp] theorem advance_memLimits : s.advance.memLimits = s.memLimits := rfl

@[simp] theorem setRun_regs (r : RunState) : (s.setRun r).regs = s.regs := rfl
@[simp] theorem setRun_pc (r : RunState) : (s.setRun r).pc = s.pc := rfl
@[simp] theorem setRun_run (r : RunState) : (s.setRun r).run = r := rfl
@[simp] theorem setRun_mem (r : RunState) : (s.setRun r).mem = s.mem := rfl
@[simp] theorem setRun_outq (r : RunState) : (s.setRun r).outq = s.outq := rfl
@[simp] theorem setRun_inq (r : RunState) : (s.setRun r).inq = s.inq := rfl
@[simp] theorem setRun_inClosed (r : RunState) : (s.setRun r).inClosed = s.inClosed := rfl
@[simp] theorem setRun_memLimits (r : RunState) : (s.setRun r).memLimits = s.memLimits := rfl

@[simp] theorem setMem_regs (m : Memory) : (s.setMem m).regs = s.regs := rfl
@[simp] theorem setMem_pc (m : Memory) : (s.setMem m).pc = s.pc := rfl
@[simp] theorem setMem_run (m : Memory) : (s.setMem m).run = s.run := rfl
@[simp] theorem setMem_mem (m : Memory) : (s.setMem m).mem = m := rfl
@[simp] theorem setMem_outq (m : Memory) : (s.setMem m).outq = s.outq := rfl
@[simp] theorem setMem_inq (m : Memory) : (s.setMem m).inq = s.inq := rfl
@[simp] theorem setMem_inClosed (m : Memory) : (s.setMem m).inClosed = s.inClosed := rfl
@[simp] theorem setMem_memLimits (m : Memory) : (s.setMem m).memLimits = s.memLimits := rfl

@[simp] theorem outByte_regs (b : Byte) : (s.outByte b).regs = s.regs := rfl
@[simp] theorem outByte_pc (b : Byte) : (s.outByte b).pc = s.pc := rfl
@[simp] theorem outByte_run (b : Byte) : (s.outByte b).run = s.run := rfl
@[simp] theorem outByte_mem (b : Byte) : (s.outByte b).mem = s.mem := rfl
@[simp] theorem outByte_outq (b : Byte) : (s.outByte b).outq = s.outq ++ [b] := rfl
@[simp] theorem outByte_inq (b : Byte) : (s.outByte b).inq = s.inq := rfl
@[simp] theorem outByte_inClosed (b : Byte) : (s.outByte b).inClosed = s.inClosed := rfl
@[simp] theorem outByte_memLimits (b : Byte) : (s.outByte b).memLimits = s.memLimits := rfl

@[simp] theorem takeInput_regs : s.takeInput.regs = s.regs := rfl
@[simp] theorem takeInput_pc : s.takeInput.pc = s.pc := rfl
@[simp] theorem takeInput_run : s.takeInput.run = s.run := rfl
@[simp] theorem takeInput_mem : s.takeInput.mem = s.mem := rfl
@[simp] theorem takeInput_outq : s.takeInput.outq = s.outq := rfl
@[simp] theorem takeInput_inq : s.takeInput.inq = s.inq.tail := rfl
@[simp] theorem takeInput_inClosed : s.takeInput.inClosed = s.inClosed := rfl
@[simp] theorem takeInput_memLimits : s.takeInput.memLimits = s.memLimits := rfl

/-- A register read after a write gives the value written (00_scope.md R13). -/
@[simp] theorem readReg_writeReg_same (i : RegIdx) (v : Word) : (s.writeReg i v).readReg i = v := by
  simp [readReg, writeReg]

/-- Writing one register leaves every other as it was. -/
theorem readReg_writeReg_ne (i j : RegIdx) (v : Word) (h : j ≠ i) : (s.writeReg i v).readReg j = s.readReg j := by
  have : i.val ≠ j.val := fun e => h (Fin.ext e.symm)
  simp [readReg, writeReg, this]

@[simp] theorem readReg_advance (i : RegIdx) : s.advance.readReg i = s.readReg i := rfl
@[simp] theorem readReg_jump (i : RegIdx) (t : Word) : (s.jump t).readReg i = s.readReg i := rfl
@[simp] theorem readReg_setRun (i : RegIdx) (r : RunState) : (s.setRun r).readReg i = s.readReg i := rfl
@[simp] theorem readReg_setMem (i : RegIdx) (m : Memory) : (s.setMem m).readReg i = s.readReg i := rfl
@[simp] theorem readReg_outByte (i : RegIdx) (b : Byte) : (s.outByte b).readReg i = s.readReg i := rfl
@[simp] theorem readReg_takeInput (i : RegIdx) : s.takeInput.readReg i = s.readReg i := rfl

/-- A register read is the register's entry in the file. -/
theorem readReg_eq (i : RegIdx) : s.readReg i = s.regs[i] := rfl

/-- What the port offers depends on the input stream and its mark alone. -/
theorem offer_congr {s t : State} (hq : t.inq = s.inq) (hc : t.inClosed = s.inClosed) : t.offer = s.offer := by
  simp [offer, hq, hc]

theorem offer_eq_byte {s : State} {b : Byte} : s.offer = .byte b ↔ ∃ rest, s.inq = b :: rest := by
  unfold offer
  split <;> simp_all

theorem offer_eq_eof {s : State} : s.offer = .eof ↔ s.inq = [] ∧ s.inClosed = true := by
  unfold offer
  split <;> simp_all

theorem offer_eq_nothing {s : State} : s.offer = .nothing ↔ s.inq = [] ∧ s.inClosed = false := by
  unfold offer
  split <;> simp_all

end Sys2Proof.Machine.State
end

