-- ==== Sys2Proof/Laws/Ops.lean ====
section
/-! SUPPORT. One lemma per shared operation that says everything it can answer. -/

namespace Sys2Proof.Machine

@[simp] theorem raise_eq (c : Cause) (s : State) : raise c s = .next (s.setRun (.faulted c)) := rfl
@[simp] theorem retire_eq (s : State) : retire s = .next s.advance := rfl
@[simp] theorem halt_eq (s : State) : halt s = .next (s.setRun .halted) := rfl

namespace State

variable {s t : State} {seg i v n id : Word} {c : Cause}

theorem memWrite_eq_ok : s.memWrite seg i v = .ok t ↔ ∃ m, s.mem.write seg i v = .ok m ∧ t = s.setMem m := by
  cases h : s.mem.write seg i v <;> simp [memWrite, h, eq_comm (a := t)]

theorem memWrite_eq_error : s.memWrite seg i v = .error c ↔ s.mem.write seg i v = .error c := by
  cases h : s.mem.write seg i v <;> simp [memWrite, h]

theorem segFree_eq_ok : s.segFree seg = .ok t ↔ ∃ m, s.mem.free seg = .ok m ∧ t = s.setMem m := by
  cases h : s.mem.free seg <;> simp [segFree, h, eq_comm (a := t)]

theorem segFree_eq_error : s.segFree seg = .error c ↔ s.mem.free seg = .error c := by
  cases h : s.mem.free seg <;> simp [segFree, h]

theorem segLoad0_eq_ok : s.segLoad0 seg = .ok t ↔ ∃ m, s.mem.load0 seg = .ok m ∧ t = s.setMem m := by
  cases h : s.mem.load0 seg <;> simp [segLoad0, h, eq_comm (a := t)]

theorem segLoad0_eq_error : s.segLoad0 seg = .error c ↔ s.mem.load0 seg = .error c := by
  cases h : s.mem.load0 seg <;> simp [segLoad0, h]

theorem segAlloc_eq_ok {cap : Word → Bool} :
    s.segAlloc cap n = .ok (id, t) ↔ cap n = true ∧ ∃ m, s.mem.alloc n = .ok (id, m) ∧
      t = { s with mem := m, memLimits := limitsAfterGrant s.memLimits } := by
  cases h : cap n <;> cases hm : s.mem.alloc n <;> simp [segAlloc, h, hm, Prod.ext_iff, eq_comm (a := t), and_comm]

theorem segAlloc_eq_error {cap : Word → Bool} :
    s.segAlloc cap n = .error c ↔ (cap n = false ∧ c = .resourceExhausted) ∨
      (cap n = true ∧ s.mem.alloc n = .error c) := by
  cases h : cap n <;> cases hm : s.mem.alloc n <;> simp [segAlloc, h, hm, eq_comm (a := c)]

/-- A length cannot be had exactly when a range of the entry that is up covers it (log entry 4). -/
theorem memCapacity_eq_false :
    s.memCapacity n = false ↔ ∃ r ∈ s.memLimits.headD [], r.lo.toNat ≤ n.toNat ∧ n.toNat ≤ r.hi.toNat := by
  simp [memCapacity, LengthRange.covers]

/-- Going on to the next word, with the wrap said by the word's own addition (40_execution_cycle.md R106). -/
theorem advance_eq : s.advance = { s with pc := s.pc + 1#32 } := by
  have : BitVec.ofNat 32 (s.pc.toNat + 1) = s.pc + 1#32 := by
    apply BitVec.eq_of_toNat_eq
    simp
  simp only [advance, jump, this]

/-- A segment memory update keeps the machine's invariant if it keeps the memory's. -/
theorem Inv.of_mem {s t : State} (h : s.Inv) (e : t.mem = s.mem) : t.Inv := ⟨e ▸ h.mem⟩

end State

@[simp] theorem limitsAfterGrant_nil : limitsAfterGrant [] = [] := rfl
@[simp] theorem limitsAfterGrant_standing (e : List LengthRange) : limitsAfterGrant [e] = [e] := rfl
@[simp] theorem limitsAfterGrant_next (e f : List LengthRange) (rest : List (List LengthRange)) :
    limitsAfterGrant (e :: f :: rest) = f :: rest := rfl

/-- A value is a condition's truth exactly when it is not 0. -/
@[simp] theorem isTrue_eq_true {v : Word} : isTrue v = true ↔ v ≠ 0#32 := by simp [isTrue]

@[simp] theorem isTrue_eq_false {v : Word} : isTrue v = false ↔ v = 0#32 := by simp [isTrue]

theorem fitsByte_eq_true {v : Word} : fitsByte v = true ↔ v.toNat ≤ 255 := by simp [fitsByte]

theorem fitsByte_eq_false {v : Word} : fitsByte v = false ↔ 255 < v.toNat := by simp [fitsByte]

end Sys2Proof.Machine
end

