-- ==== Sys2Proof/Laws/Exec.lean ====
section
/-! SUPPORT. One inversion lemma per meaning, of the step, and of a run: what the answer can be, guards included. -/

namespace Sys2Proof.Machine

variable {s t : State} {a b c : RegIdx}

theorem execCmov_inv (h : execCmov a b c s = .next t) :
    (s.readReg c ≠ 0#32 ∧ t = (s.writeReg a (s.readReg b)).advance) ∨ (s.readReg c = 0#32 ∧ t = s.advance) := by
  by_cases hc : s.readReg c = 0#32
  · exact .inr ⟨hc, by simpa [execCmov, State.operands, hc] using h.symm⟩
  · exact .inl ⟨hc, by simpa [execCmov, State.operands, hc] using h.symm⟩

theorem execSload_inv (h : execSload a b c s = .next t) :
    (∃ w, s.mem.read (s.readReg b) (s.readReg c) = .ok w ∧ t = (s.writeReg a w).advance) ∨
    (∃ cause, s.mem.read (s.readReg b) (s.readReg c) = .error cause ∧ t = s.setRun (.faulted cause)) := by
  simp only [execSload, State.operands, State.memRead] at h
  cases hr : s.mem.read (s.readReg b) (s.readReg c) with
  | error cause => exact .inr ⟨cause, rfl, by simpa [hr] using h.symm⟩
  | ok w => exact .inl ⟨w, rfl, by simpa [hr] using h.symm⟩

theorem execSstore_inv (h : execSstore a b c s = .next t) :
    (∃ m, s.mem.write (s.readReg a) (s.readReg b) (s.readReg c) = .ok m ∧ t = (s.setMem m).advance) ∨
    (∃ cause, s.mem.write (s.readReg a) (s.readReg b) (s.readReg c) = .error cause ∧
      t = s.setRun (.faulted cause)) := by
  simp only [execSstore, State.operands, State.memWrite] at h
  cases hw : s.mem.write (s.readReg a) (s.readReg b) (s.readReg c) with
  | error cause => exact .inr ⟨cause, rfl, by simpa [hw] using h.symm⟩
  | ok m => exact .inl ⟨m, rfl, by simpa [hw] using h.symm⟩

theorem aluWrite_inv {f : Word → Word → Word} (h : aluWrite f a b c s = .next t) :
    t = (s.writeReg a (f (s.readReg b) (s.readReg c))).advance := by
  simpa [aluWrite, State.operands] using h.symm

theorem execDiv_inv (h : execDiv a b c s = .next t) :
    (s.readReg c ≠ 0#32 ∧ t = (s.writeReg a (aluDiv (s.readReg b) (s.readReg c))).advance) ∨
    (s.readReg c = 0#32 ∧ t = s.setRun (.faulted .divisionByZero)) := by
  by_cases hc : s.readReg c = 0#32
  · exact .inr ⟨hc, by simpa [execDiv, hc] using h.symm⟩
  · refine .inl ⟨hc, aluWrite_inv (f := aluDiv) ?_⟩
    simpa [execDiv, hc] using h

theorem execHalt_inv (h : execHalt s = .next t) : t = s.setRun .halted := by simpa [execHalt] using h.symm

theorem execMapUnder_inv {cap : Word → Bool} (h : execMapUnder cap b c s = .next t) :
    (∃ id m, cap (s.readReg c) = true ∧ s.mem.alloc (s.readReg c) = .ok (id, m) ∧
      t = (State.writeReg { s with mem := m, memLimits := limitsAfterGrant s.memLimits } b id).advance) ∨
    (cap (s.readReg c) = false ∧ t = s.setRun (.faulted .resourceExhausted)) ∨
    (cap (s.readReg c) = true ∧ ∃ cause, s.mem.alloc (s.readReg c) = .error cause ∧
      t = s.setRun (.faulted cause)) := by
  unfold execMapUnder at h
  cases ha : s.segAlloc cap (s.readReg c) with
  | error cause =>
    have ht : t = s.setRun (.faulted cause) := by simpa [ha] using h.symm
    rcases State.segAlloc_eq_error.mp ha with ⟨h1, rfl⟩ | ⟨h1, h2⟩
    · exact .inr (.inl ⟨h1, ht⟩)
    · exact .inr (.inr ⟨h1, cause, h2, ht⟩)
  | ok p =>
    obtain ⟨id, u⟩ := p
    obtain ⟨h1, m, h2, rfl⟩ := State.segAlloc_eq_ok.mp ha
    exact .inl ⟨id, m, h1, h2, by simpa [ha] using h.symm⟩

theorem execMap_inv (h : execMap b c s = .next t) :
    (∃ id m, s.memCapacity (s.readReg c) = true ∧ s.mem.alloc (s.readReg c) = .ok (id, m) ∧
      t = (State.writeReg { s with mem := m, memLimits := limitsAfterGrant s.memLimits } b id).advance) ∨
    (s.memCapacity (s.readReg c) = false ∧ t = s.setRun (.faulted .resourceExhausted)) ∨
    (s.memCapacity (s.readReg c) = true ∧ ∃ cause, s.mem.alloc (s.readReg c) = .error cause ∧
      t = s.setRun (.faulted cause)) := execMapUnder_inv h

theorem execUnmap_inv (h : execUnmap c s = .next t) :
    (∃ m, s.mem.free (s.readReg c) = .ok m ∧ t = (s.setMem m).advance) ∨
    (∃ cause, s.mem.free (s.readReg c) = .error cause ∧ t = s.setRun (.faulted cause)) := by
  simp only [execUnmap, State.segFree] at h
  cases hf : s.mem.free (s.readReg c) with
  | error cause => exact .inr ⟨cause, rfl, by simpa [hf] using h.symm⟩
  | ok m => exact .inl ⟨m, rfl, by simpa [hf] using h.symm⟩

theorem execOut_inv (h : execOut c s = .next t) :
    ((s.readReg c).toNat ≤ 255 ∧ t = (s.outByte ((s.readReg c).setWidth 8)).advance) ∨
    (255 < (s.readReg c).toNat ∧ t = s.setRun (.faulted .outputRangeViolation)) := by
  unfold execOut at h
  cases hv : fitsByte (s.readReg c) with
  | true => exact .inl ⟨fitsByte_eq_true.mp hv, by simpa [hv] using h.symm⟩
  | false => exact .inr ⟨fitsByte_eq_false.mp hv, by simpa [hv] using h.symm⟩

theorem execInp_inv (h : execInp c s = .next t) :
    (s.offer = .nothing ∧ t = s) ∨
    (∃ v, s.offer = .byte v ∧ t = (s.takeInput.writeReg c (v.setWidth 32)).advance) ∨
    (s.offer = .eof ∧ t = (s.writeReg c eofSentinel).advance) := by
  unfold execInp at h
  cases ho : s.offer with
  | nothing => exact .inl ⟨rfl, by simpa [ho] using h.symm⟩
  | byte v => exact .inr (.inl ⟨v, rfl, by simpa [ho, inputWord] using h.symm⟩)
  | eof => exact .inr (.inr ⟨rfl, by simpa [ho, inputWord] using h.symm⟩)

theorem execLoadp_inv (h : execLoadp b c s = .next t) :
    (s.readReg b = 0#32 ∧ t = s.jump (s.readReg c)) ∨
    (s.readReg b ≠ 0#32 ∧ ∃ m, s.mem.load0 (s.readReg b) = .ok m ∧ t = (s.setMem m).jump (s.readReg c)) ∨
    (s.readReg b ≠ 0#32 ∧ ∃ cause, s.mem.load0 (s.readReg b) = .error cause ∧ t = s.setRun (.faulted cause)) := by
  by_cases hb : s.readReg b = 0#32
  · exact .inl ⟨hb, by simpa [execLoadp, hb] using h.symm⟩
  · simp only [execLoadp, isTrue_eq_true.mpr hb, if_true, State.segLoad0] at h
    cases hl : s.mem.load0 (s.readReg b) with
    | error cause => exact .inr (.inr ⟨hb, cause, rfl, by simpa [hl] using h.symm⟩)
    | ok m => exact .inr (.inl ⟨hb, m, rfl, by simpa [hl] using h.symm⟩)

theorem execLoadv_inv {imm : Nat} (h : execLoadv a imm s = .next t) :
    t = (s.writeReg a (BitVec.ofNat 32 imm)).advance := by
  simpa [execLoadv, immOperand] using h.symm

/-- Everything a step can do from a state, guards included. -/
theorem stepWith_inv {reject : Bool} (h : stepWith reject s = .next t) :
    s.run = .running ∧
    ((∃ cause, s.fetch = .error cause ∧ t = s.setRun (.faulted cause)) ∨
     (∃ w, s.fetch = .ok w ∧ decode reject w = none ∧ t = s.setRun (.faulted .malformedProgram)) ∨
     (∃ w i, s.fetch = .ok w ∧ decode reject w = some i ∧ exec i s = .next t)) := by
  unfold stepWith at h
  cases hrun : s.run with
  | halted => simp [hrun] at h
  | faulted cause => simp [hrun] at h
  | running =>
    refine ⟨rfl, ?_⟩
    cases hf : s.fetch with
    | error cause => exact .inl ⟨cause, rfl, by simpa [hrun, hf] using h.symm⟩
    | ok w =>
      cases hd : decode reject w with
      | none => exact .inr (.inl ⟨w, rfl, hd, by simpa [hrun, hf, hd] using h.symm⟩)
      | some i => exact .inr (.inr ⟨w, i, rfl, hd, by simpa [hrun, hf, hd] using h⟩)

/-- Under a given MEM_CAPACITY, a MAP about to run is MAP under it. -/
theorem stepUnder_map {cap : Word → Bool} {reject : Bool} (hr : s.run = .running)
    (hi : s.instrAt reject = some (.map b c)) : stepUnder cap reject s = execMapUnder cap b c s := by
  simp [stepUnder, hr, hi]

/-- With no MAP at pc, MEM_CAPACITY plays no part. -/
theorem stepUnder_of_not_map {cap : Word → Bool} {reject : Bool}
    (hi : ∀ b c, s.instrAt reject ≠ some (.map b c)) : stepUnder cap reject s = stepWith reject s := by
  unfold stepUnder
  split
  · exact absurd ‹_› (hi _ _)
  · rfl

/-- The fetch reads word pc of segment 0 (40_execution_cycle.md R101). -/
theorem fetch_eq (s : State) : s.fetch = s.mem.read 0#32 s.pc := rfl

/-- What holds of a state, and is kept by every step and by every act of the host, holds of all that can come of
it. -/
theorem Reaches.keeps {reject : Bool} {p : State → Prop} (hr : Reaches reject s t) (h0 : p s)
    (hs : ∀ u v, p u → stepWith reject u = .next v → p v) (hh : ∀ u e, p u → p (u.host e)) : p t := by
  induction hr with
  | start => exact h0
  | step _ hstep ih => exact hs _ _ ih hstep
  | host e _ ih => exact hh _ e ih

@[simp] theorem host_regs (e : HostEvent) : (s.host e).regs = s.regs := by
  cases e with
  | close => rfl
  | supply v => by_cases h : s.inClosed = true <;> simp [State.host, h]

@[simp] theorem host_pc (e : HostEvent) : (s.host e).pc = s.pc := by
  cases e with
  | close => rfl
  | supply v => by_cases h : s.inClosed = true <;> simp [State.host, h]

@[simp] theorem host_run (e : HostEvent) : (s.host e).run = s.run := by
  cases e with
  | close => rfl
  | supply v => by_cases h : s.inClosed = true <;> simp [State.host, h]

@[simp] theorem host_mem (e : HostEvent) : (s.host e).mem = s.mem := by
  cases e with
  | close => rfl
  | supply v => by_cases h : s.inClosed = true <;> simp [State.host, h]

@[simp] theorem host_outq (e : HostEvent) : (s.host e).outq = s.outq := by
  cases e with
  | close => rfl
  | supply v => by_cases h : s.inClosed = true <;> simp [State.host, h]


/-- Reset is boot with an empty image and an empty, closed input stream (log entries 6 and 7). -/
theorem reset_eq_boot : State.reset = State.boot [] [] true [] := rfl

end Sys2Proof.Machine
end

