-- ==== Sys2Proof/Laws/PerInstr.lean ====
section
/-! SUPPORT. What holds of every instruction as syntax, one lemma per constructor. -/

namespace Sys2Proof.Laws.EncodeOpcode

/-- A well-formed instruction has a word, and the word's opcode field holds its opcode (30_encoding.md R78, R83,
R84). -/
def Statement (i : Instr) : Prop := i.wellFormed = true → ∃ w, encode i = some w ∧ opField w = i.opcode

theorem cmov (a b c : RegIdx) : Statement (.cmov a b c) := fun _ => ⟨_, rfl, opField_encodeThreeRegister _ _ _ _⟩
theorem sload (a b c : RegIdx) : Statement (.sload a b c) := fun _ => ⟨_, rfl, opField_encodeThreeRegister _ _ _ _⟩
theorem sstore (a b c : RegIdx) : Statement (.sstore a b c) := fun _ => ⟨_, rfl, opField_encodeThreeRegister _ _ _ _⟩
theorem add (a b c : RegIdx) : Statement (.add a b c) := fun _ => ⟨_, rfl, opField_encodeThreeRegister _ _ _ _⟩
theorem mul (a b c : RegIdx) : Statement (.mul a b c) := fun _ => ⟨_, rfl, opField_encodeThreeRegister _ _ _ _⟩
theorem div (a b c : RegIdx) : Statement (.div a b c) := fun _ => ⟨_, rfl, opField_encodeThreeRegister _ _ _ _⟩
theorem nand (a b c : RegIdx) : Statement (.nand a b c) := fun _ => ⟨_, rfl, opField_encodeThreeRegister _ _ _ _⟩
theorem halt : Statement .halt := fun _ => ⟨_, rfl, opField_encodeThreeRegister _ _ _ _⟩
theorem map (b c : RegIdx) : Statement (.map b c) := fun _ => ⟨_, rfl, opField_encodeThreeRegister _ _ _ _⟩
theorem unmap (c : RegIdx) : Statement (.unmap c) := fun _ => ⟨_, rfl, opField_encodeThreeRegister _ _ _ _⟩
theorem out (c : RegIdx) : Statement (.out c) := fun _ => ⟨_, rfl, opField_encodeThreeRegister _ _ _ _⟩
theorem inp (c : RegIdx) : Statement (.inp c) := fun _ => ⟨_, rfl, opField_encodeThreeRegister _ _ _ _⟩
theorem loadp (b c : RegIdx) : Statement (.loadp b c) := fun _ => ⟨_, rfl, opField_encodeThreeRegister _ _ _ _⟩

theorem loadv (a : RegIdx) (imm : Nat) : Statement (.loadv a imm) := by
  intro h
  have hfit : imm < 2 ^ 25 := of_decide_eq_true h
  refine ⟨BitVec.ofNat 32 (13 * 2 ^ 28 + a.val * 2 ^ 25 + imm), if_pos h, ?_⟩
  apply BitVec.eq_of_toNat_eq
  rw [opField_toNat, BitVec.toNat_ofNat]
  simp only [Instr.opcode, BitVec.toNat_ofNat]
  omega

end Sys2Proof.Laws.EncodeOpcode
end

