-- ==== Sys2Proof/Tests/Slice0.lean ====
section
/-! SUPPORT. The model's own tests, their expected results taken from spec/95_test_vectors.md and the rules' own
examples, and for every statement with hypotheses a concrete input that meets them. -/

namespace Sys2Proof.Tests

open Sys2Proof.Machine

/-! ### Well-formedness: the one check refuses an ill-formed term -/

theorem test_wellFormed_refuses_wide_immediate : (Instr.loadv 0 (2 ^ 25)).wellFormed = false := by decide
theorem test_wellFormed_takes_largest_immediate : (Instr.loadv 7 (2 ^ 25 - 1)).wellFormed = true := by decide
theorem test_encode_refuses_ill_formed : encode (.loadv 0 (2 ^ 25)) = none := by decide

/-! ### Decoding: each constructor's word, written out from the encodings of R72, R73, R78, R86 -/

theorem test_decode_cmov : decode false 0b0000_0000000000000000000_001_010_011#32 = some (.cmov 1 2 3) := by decide
theorem test_decode_sload : decode false 0b0001_0000000000000000000_001_111_000#32 = some (.sload 1 7 0) := by decide
theorem test_decode_sstore : decode false 0b0010_0000000000000000000_010_100_101#32 = some (.sstore 2 4 5) := by decide
theorem test_decode_add : decode false 0b0011_0000000000000000000_100_100_011#32 = some (.add 4 4 3) := by decide
theorem test_decode_mul : decode false 0b0100_0000000000000000000_010_010_011#32 = some (.mul 2 2 3) := by decide
theorem test_decode_div : decode false 0b0101_0000000000000000000_010_001_000#32 = some (.div 2 1 0) := by decide
theorem test_decode_nand : decode false 0b0110_0000000000000000000_100_011_011#32 = some (.nand 4 3 3) := by decide
theorem test_decode_halt : decode false 0b0111_0000000000000000000_111_111_111#32 = some .halt := by decide
theorem test_decode_map : decode false 0b1000_0000000000000000000_000_010_011#32 = some (.map 2 3) := by decide
theorem test_decode_unmap : decode false 0b1001_0000000000000000000_000_000_010#32 = some (.unmap 2) := by decide
theorem test_decode_out : decode false 0b1010_0000000000000000000_000_000_111#32 = some (.out 7) := by decide
theorem test_decode_inp : decode false 0b1011_0000000000000000000_000_000_001#32 = some (.inp 1) := by decide
theorem test_decode_loadp : decode false 0b1100_0000000000000000000_000_010_000#32 = some (.loadp 2 0) := by decide
theorem test_decode_loadv : decode false 0b1101_111_0101011011011111011101111#32 = some (.loadv 7 0x0ADBEEF) := by decide

/-- Section 2.1: reserved bits ignored by default, Invalid under REJECT_RESERVED_BITS. -/
theorem test_decode_reserved : decode false 0x7FFFFFFF#32 = some .halt ∧ decode true 0x700001FF#32 = some .halt ∧
    decode true 0x70000200#32 = none ∧ decode true 0xDFFFFFFF#32 = some (.loadv 7 0x1FFFFFF) := by decide

/-- Section 2.1: opcodes 14 and 15. -/
theorem test_decode_invalid : decodeFields false 0xE0000000#32 = .invalid 14#4 ∧
    decodeFields false 0xFFFFFFFF#32 = .invalid 15#4 := by decide

/-- Section 4's words for each shape of operands. -/
theorem test_encode : encode (.loadp 2 0) = some 0xC0000010#32 ∧ encode (.unmap 3) = some 0x90000003#32 ∧
    encode (.loadv 7 13) = some 0xDE00000D#32 ∧ encode (.nand 4 3 3) = some 0x6000011B#32 := by decide

theorem test_decodeTableWord : decodeTableWord 32 0x8000001B = some (.map 3 3) := by decide

/-- Section 4's assembly texts. -/
theorem test_asm : (Instr.map 2 3).asm = "MAP r2, r3" ∧ Instr.halt.asm = "HALT" ∧ (Instr.loadv 7 13).asm = "LOADV r7, 13" := by
  decide

/-! ### One step of each instruction -/

/-- Reset with some registers set. -/
def withRegs (rs : List (RegIdx × Word)) : State := rs.foldl (fun s p => s.writeReg p.1 p.2) State.reset

/-- Section 2.3's start state, with segment 0 one HALT long. -/
def withSegment (rs : List (RegIdx × Word)) : State :=
  { withRegs rs with mem := { slots := [.live (.ofWords [0x70000000#32]), .live (.ofWords [7, 8, 9])], freeq := [] } }

/-- A machine whose segment 0 is the given words. -/
def withProgram (ws : List Word) : State := State.boot ws [] true []

/-- What a test looks at in the answer. -/
def answer {α : Type} (r : StepResult) (f : State → α) : Option α :=
  match r with
  | .next s => some (f s)
  | .fault _ => none
  | .refused _ => none

theorem test_cmov_moves : answer (exec (.cmov 3 2 3) (withRegs [(3, 7), (2, 4)])) (·.readReg 3) = some 4 := by decide
theorem test_cmov_keeps :
    answer (exec (.cmov 1 2 3) (withRegs [(1, 5), (2, 9)])) (fun s => (s.readReg 1, s.pc)) = some (5, 1) := by decide
theorem test_sload_aliased : answer (exec (.sload 1 1 2) (withSegment [(2, 1), (1, 1)])) (·.readReg 1) = some 8 := by
  decide
theorem test_sload_faults : answer (exec (.sload 1 2 3) (withSegment [(2, 1), (3, 3)])) (fun s => (s.run, s.pc)) =
    some (.faulted .outOfBounds, 0) := by decide
theorem test_sstore : answer (exec (.sstore 1 2 3) (withSegment [(1, 1), (3, 0x41)])) (·.mem.slots[1]?) =
    some (some (.live (.ofWords [0x41, 8, 9]))) := by decide
theorem test_sstore_never_extends_segment_zero :
    answer (exec (.sstore 1 2 3) (withSegment [(2, 1)])) (fun s => (s.run, s.mem.slots.length)) =
      some (.faulted .outOfBounds, 2) := by decide
theorem test_add_wraps :
    answer (exec (.add 1 2 3) (withRegs [(2, 0xFFFFFFFF), (3, 2)])) (·.readReg 1) = some 1 := by decide
theorem test_mul_wraps : answer (exec (.mul 1 2 3) (withRegs [(2, 0x12345678), (3, 0x9ABCDEF0)])) (·.readReg 1) =
    some 0x242D2080 := by decide
theorem test_div_unsigned :
    answer (exec (.div 1 2 3) (withRegs [(2, 0x80000000), (3, 2)])) (·.readReg 1) = some 0x40000000 := by decide
theorem test_div_by_zero :
    answer (exec (.div 1 2 3) (withRegs [(1, 6), (2, 3)])) (fun s => (s.status false, s.readReg 1)) =
      some (0x43, 6) := by decide
theorem test_nand : answer (exec (.nand 1 2 3) (withRegs [(2, 0xF0F0F0F0), (3, 0xFF00FF00)])) (·.readReg 1) =
    some 0x0FFF0FFF := by decide
theorem test_halt : answer (step (withProgram [0x70000000])) (fun s => (s.run, s.pc, s.status false)) =
    some (.halted, 0, 2) := by decide
theorem test_map_reads_length_first :
    answer (exec (.map 3 3) (withRegs [(3, 5)])) (fun s => (s.readReg 3, s.mem.slots[1]?)) =
      some (1, some (.live (.zeros 5))) := by decide
theorem test_map_without_capacity :
    answer (exec (.map 2 3) { withRegs [(3, 3)] with memLimits := [[⟨3, 3⟩]] }) (fun s => (s.run, s.readReg 2)) =
      some (.faulted .resourceExhausted, 0) := by decide
theorem test_unmap : answer (exec (.unmap 2) (withSegment [(2, 1)])) (fun s => (s.mem.slots[1]?, s.mem.freeq)) =
    some (some .empty, [1]) := by decide
theorem test_unmap_zero : answer (exec (.unmap 2) (withSegment [])) (·.run) = some (.faulted .invalidSegment) := by
  decide
theorem test_out : answer (exec (.out 1) (withRegs [(1, 255)])) (·.outq) = some [0xFF] := by decide
theorem test_out_of_range : answer (exec (.out 1) (withRegs [(1, 256)])) (fun s => (s.run, s.outq)) =
    some (.faulted .outputRangeViolation, []) := by decide
theorem test_in_byte : answer (exec (.inp 1) { State.reset with inq := [0xFF, 0x42] }) (fun s => (s.readReg 1, s.inq)) =
    some (0xFF, [0x42]) := by decide
theorem test_in_held :
    ({ withProgram [0xB0000001] with inClosed := false } : State).status false = 1 := by decide
theorem test_loadp_copies :
    answer (exec (.loadp 2 0) (withSegment [(2, 1)])) (fun s => (s.mem.slots[0]?, s.mem.slots[1]?, s.pc)) =
      some (some (.live (.ofWords [7, 8, 9])), some (.live (.ofWords [7, 8, 9])), 0) := by decide
theorem test_loadp_jumps : answer (exec (.loadp 0 3) (withSegment [(3, 5)])) (fun s => (s.mem.slots[0]?, s.pc)) =
    some (some (.live (.ofWords [0x70000000])), 5) := by decide
theorem test_loadv : answer (step (State.reset.withFetchWord 32 0xDFFFFFFF)) (·.readReg 7) = some 0x01FFFFFF := by decide
theorem test_fetch_past_end : answer (step State.reset) (fun s => (s.run, s.pc)) = some (.faulted .outOfBounds, 0) := by
  decide
theorem test_malformed : answer (step (withProgram [0xE0000000])) (·.run) = some (.faulted .malformedProgram) := by decide
theorem test_image : imageOfBytes [0xD2, 0, 0, 0x47, 0x70, 0, 0, 0] = .ok [0xD2000047, 0x70000000] := by decide

/-! ### Witnesses: the statements' hypotheses can be met -/

/-- A machine with one word of program, and what follows from its being booted. -/
def w0 : State := withProgram [0x70000000#32]

theorem w0_inv : w0.Inv := ⟨Memory.boot_inv _ (by decide)⟩

/-- A machine with the free-id queue [1]. -/
def wFreed : State :=
  { withRegs [(3, 2)] with mem := { slots := [.live (.ofWords [0x70000000#32]), .empty], freeq := [1#32] } }

theorem witness_DecoderVerdictOnEveryWord :
    (0xDFFFFFFF#32).toNat / 2 ^ 28 = 13 ∧ 14 ≤ (0xE0000000#32).toNat / 2 ^ 28 ∧
    ((0xC0000200#32).toNat / 2 ^ 28 ≤ 12 ∧ (0xC0000200#32).toNat / 2 ^ 9 % 2 ^ 19 ≠ 0) ∧
    ((0xC00001FF#32).toNat / 2 ^ 28 ≤ 12 ∧ (0xC00001FF#32).toNat / 2 ^ 9 % 2 ^ 19 = 0) := by decide

theorem witness_OpcodeMap : decode true 0xDFFFFFFF#32 = some (.loadv 7 0x1FFFFFF) ∧
    14 ≤ (0xE0000000#32).toNat / 2 ^ 28 := by decide

theorem witness_UnusedFieldsIgnored :
    (opField 0x60000053#32 = opField 0x60000053#32 ∧ (opField 0x60000053#32).toNat ≤ 6) ∧
    (opField 0x70000000#32 = opField 0x700001FF#32 ∧ reservedField 0x70000000#32 = reservedField 0x700001FF#32 ∧
      (opField 0x70000000#32).toNat = 7) ∧
    (opField 0x80000013#32 = opField 0x800001D3#32 ∧ (opField 0x80000013#32).toNat = 8 ∧
      bField 0x80000013#32 = bField 0x800001D3#32 ∧ cField 0x80000013#32 = cField 0x800001D3#32) ∧
    (opField 0xA0000001#32 = opField 0xA00001F9#32 ∧ (opField 0xA0000001#32).toNat = 10 ∧
      cField 0xA0000001#32 = cField 0xA00001F9#32) ∧
    (opField 0x60000053#32 = opField 0x6FFFFE53#32 ∧
      decode false 0x60000053#32 = decode false 0x6FFFFE53#32 ∧ (opField 0x60000053#32).toNat ≤ 6) ∧
    (opField 0x80000013#32 = opField 0x800001D3#32 ∧
      decode false 0x80000013#32 = decode false 0x800001D3#32 ∧ (opField 0x80000013#32).toNat = 8) ∧
    (opField 0xA0000001#32 = opField 0xA00001F9#32 ∧
      decode false 0xA0000001#32 = decode false 0xA00001F9#32 ∧ (opField 0xA0000001#32).toNat = 10) ∧
    (opField 0xDFFFFFFF#32 = 13#4 ∧ decode false 0xDFFFFFFF#32 ≠ none) := by decide

theorem witness_UnassignedOpcodesFault :
    let s := withProgram [0xE0000000#32]
    s.run = .running ∧ s.mem.read 0#32 s.pc = .ok 0xE0000000#32 ∧ (0xE0000000#32).toNat / 2 ^ 28 = 14 ∧
      answer (stepWith false s) (·.run) = some (.faulted .malformedProgram) := by decide

theorem witness_ReservedBits :
    (opField 0x7FFFFE00#32 ≠ 13#4 ∧ 0x7FFFFE00#32 &&& 0xF00001FF#32 = 0x70000000#32 &&& 0xF00001FF#32) ∧
    (opField 0x70000200#32 ≠ 13#4 ∧ reservedField 0x70000200#32 ≠ 0#19) ∧ reservedField 0x700001FF#32 = 0#19 ∧
    opField 0xD0000000#32 = 13#4 ∧
    (let s := withProgram [0x70000200#32]; s.run = .running ∧ s.mem.read 0#32 s.pc = .ok 0x70000200#32) := by decide

theorem witness_EncodeImmediateRejects : (2 ^ 25 - 1 < 2 ^ 25) ∧ 2 ^ 25 ≤ 2 ^ 25 := by decide

theorem witness_CodecRoundTrip :
    (12#4).toNat ≤ 12 ∧ 2 ^ 25 - 1 < 2 ^ 25 ∧
    (reservedField 0xC00001FF#32 = 0#19 ∧ (opField 0xC00001FF#32).toNat ≤ 12) ∧ opField 0xDFFFFFFF#32 = 13#4 := by
  decide

theorem witness_DecodeOfEncode : (Instr.loadv 7 (2 ^ 25 - 1)).wellFormed = true := by decide

theorem witness_StepRunsDecodedInstruction :
    w0.run = .running ∧ w0.mem.read 0#32 w0.pc = .ok 0x70000000#32 ∧ decode false 0x70000000#32 = some .halt := by decide

theorem witness_StepExactlyWhenRunning :
    ({ w0 with run := .halted } : State).run = .halted ∧
    ({ w0 with run := .faulted .outOfBounds } : State).run = .faulted .outOfBounds ∧ w0.run = .running := by decide

theorem witness_FetchReadsSegmentZero :
    w0.mem.slots[0]? = some (.live (.ofWords [0x70000000#32])) ∧
    w0.pc.toNat < (Segment.ofWords [0x70000000#32]).len ∧
    (Segment.ofWords [0x70000000#32]).len ≤ (w0.jump 1).pc.toNat ∧ (w0.jump 1).run = .running := by decide

theorem witness_NextPc :
    answer (stepWith false (withProgram [0x50000000#32])) (·.run) = some (.faulted .divisionByZero) ∧
    answer (stepWith false w0) (·.run) = some .halted ∧
    answer (stepWith false (withProgram [0xC0000000#32])) (·.run) = some .running ∧
    answer (stepWith false (withProgram [0xD2000001#32])) (·.run) = some .running := by decide

theorem witness_OneRegisterWritten :
    exec (.add 1 2 3) w0 = .next (State.advance (w0.writeReg 1 0#32)) ∧ destOf (.add 1 2 3) ≠ some 2 := ⟨rfl, by decide⟩

theorem witness_HeldInputResumes :
    let s := { withProgram [0xB0000001#32] with inClosed := false }
    s.run = .running ∧ s.mem.read 0#32 s.pc = .ok 0xB0000001#32 ∧ decode false 0xB0000001#32 = some (.inp 1) ∧
      s.inq = [] ∧ s.inClosed = false := by decide

theorem witness_LoadedWordRunsNext :
    State.reset.mem.wf = true ∧ decodeTableWord 32 0x80000013 = some (.map 2 3) := by decide

theorem witness_CmovRule :
    (opField 0x00000053#32 = 0#4 ∧ reservedField 0x00000053#32 = 0#19) ∧ (withRegs [(3, 1)]).regs[3] ≠ 0#32 ∧
    (withRegs []).regs[3] = 0#32 := by decide

theorem witness_SloadRule :
    (opField 0x10000053#32 = 1#4 ∧ reservedField 0x10000053#32 = 0#19) ∧
    (let s := withSegment [(2, 1), (3, 2)];
      s.mem.slots[s.regs[2].toNat]? = some (.live (.ofWords [7, 8, 9])) ∧ s.regs[3].toNat < 3) ∧
    (let s := withSegment [(2, 2)]; s.mem.slots.length ≤ s.regs[2].toNat) ∧
    (wFreed.mem.slots[(wFreed.writeReg 2 1).regs[2].toNat]? = some .empty) ∧
    (let s := withSegment [(2, 1), (3, 3)];
      s.mem.slots[s.regs[2].toNat]? = some (.live (.ofWords [7, 8, 9])) ∧ 3 ≤ s.regs[3].toNat) := by decide

theorem witness_SstoreRule :
    (opField 0x20000053#32 = 2#4 ∧ reservedField 0x20000053#32 = 0#19) ∧
    (let s := withSegment [(1, 1), (2, 2), (3, 0x41)];
      s.mem.wf = true ∧ s.mem.slots[s.regs[1].toNat]? = some (.live (.ofWords [7, 8, 9])) ∧ s.regs[2].toNat < 3) ∧
    (let s := withSegment [(1, 2)]; s.mem.slots.length ≤ s.regs[1].toNat) ∧
    (let s := withSegment [(1, 1), (2, 3)];
      s.mem.slots[s.regs[1].toNat]? = some (.live (.ofWords [7, 8, 9])) ∧ 3 ≤ s.regs[2].toNat) := by decide

theorem witness_AluRules :
    (opField 0x30000053#32 = 3#4 ∧ reservedField 0x30000053#32 = 0#19) ∧
    (opField 0x40000053#32 = 4#4 ∧ reservedField 0x40000053#32 = 0#19) ∧
    (opField 0x50000053#32 = 5#4 ∧ reservedField 0x50000053#32 = 0#19) ∧
    (opField 0x60000053#32 = 6#4 ∧ reservedField 0x60000053#32 = 0#19) ∧
    (withRegs [(3, 0xFFFFFFFF)]).regs[3] ≠ 0#32 ∧ (withRegs []).regs[3] = 0#32 := by decide

theorem witness_HaltRule :
    (opField 0x700001FF#32 = 7#4 ∧ reservedField 0x700001FF#32 = 0#19) ∧
    (opField 0x70000200#32 = 7#4 ∧ reservedField 0x70000200#32 ≠ 0#19 ∧
      (withProgram [0x70000200#32]).run = .running ∧
      (withProgram [0x70000200#32]).mem.read 0#32 (withProgram [0x70000200#32]).pc = .ok 0x70000200#32) := by decide

theorem witness_MapRule :
    (opField 0x80000013#32 = 8#4 ∧ reservedField 0x80000013#32 = 0#19) ∧
    (wFreed.memCapacity wFreed.regs[3] = true ∧ wFreed.mem.freeq = [1#32]) ∧
    ((withSegment [(3, 3)]).memCapacity 3#32 = true ∧ (withSegment [(3, 3)]).mem.freeq = []) ∧
    ({ withRegs [(3, 3)] with memLimits := [[⟨3, 3⟩]] } : State).memCapacity 3#32 = false := by decide

theorem witness_MapRule_never_zero :
    w0.Inv ∧ w0.run = .running ∧ ∃ t, exec (.map 2 3) w0 = .next t ∧ t.run = .running := ⟨w0_inv, rfl, _, rfl, rfl⟩

theorem witness_MapRule_no_identifier_left :
    ∃ s : State, s.mem.freeq = [] ∧ 2 ^ 32 ≤ s.mem.slots.length :=
  ⟨{ w0 with mem := { slots := List.replicate (2 ^ 32) .empty, freeq := [] } }, rfl, by
    rw [List.length_replicate]⟩

/-- A state whose next allocation cannot have 3 to 5 words, and no later one 7 or more. -/
def wLimits : State := { withSegment [(3, 6)] with memLimits := [[⟨3, 5⟩], [⟨7, 0xFFFFFFFF⟩]] }

theorem witness_MapUsesLimits :
    (wLimits.memLimits = [[⟨3, 5⟩], [⟨7, 0xFFFFFFFF⟩]] ∧ wLimits.run = .running ∧ wLimits.mem.slots.length < 2 ^ 32 ∧
      [2, 3, 5, 6].map (wLimits.memCapacity ·) = [true, false, false, true]) ∧
    (answer (exec (.map 2 3) wLimits) (·.run) = some .running ∧
      answer (exec (.map 2 3) (wLimits.writeReg 3 5)) (·.run) = some (.faulted .resourceExhausted)) ∧
    (answer (exec (.map 2 3) { wLimits with memLimits := [[⟨7, 0xFFFFFFFF⟩]] }) (·.run) = some .running) ∧
    (answer (exec (.map 2 3) w0) (·.run) = some .running ∧ w0.run = .running) ∧ w0.memLimits = [] := by decide

/-- A run that asks twice (MAP r0, r0), with fewer than 100 words to be had for the whole of it. -/
def wStanding : State := { (withProgram [0x80000000#32, 0x80000000#32]).writeReg 0 99 with
  memLimits := [[⟨100, 0xFFFFFFFF⟩]] }

theorem witness_CapacityStands :
    wStanding.memLimits = [[⟨100#32, 0xFFFFFFFF#32⟩]] ∧ wStanding.memCapacity 99 = true ∧
    wStanding.memCapacity 100 = false ∧ wStanding.memCapacity 0xFFFFFFFF = false ∧
    ∃ t, Reaches false wStanding t ∧ t.pc = 1#32 ∧ t.memCapacity 99 = true ∧ t.memCapacity 100 = false := by
  refine ⟨by decide, by decide, by decide, by decide, _, .step .start rfl, ?_⟩
  decide

theorem witness_CapacityIsAnArgument :
    wStanding.run = .running ∧ wStanding.mem.read 0#32 wStanding.pc = .ok 0x80000000#32 ∧
    decode false 0x80000000#32 = some (.map 0 0) ∧ wStanding.mem.freeq = [] ∧ wStanding.mem.slots.length < 2 ^ 32 ∧
    (let s : State := { wFreed with mem.slots := [.live (.ofWords [0x80000013#32]), .empty] }
     s.run = .running ∧ s.mem.read 0#32 s.pc = .ok 0x80000013#32 ∧
        decode false 0x80000013#32 = some (.map 2 3) ∧ s.mem.freeq = [1#32]) ∧
    answer (stepUnder (fun _ => false) false wStanding) (·.run) = some (.faulted .resourceExhausted) ∧
    answer (stepUnder (fun _ => true) false (wStanding.writeReg 0 100)) (·.run) = some .running ∧
    decode false 0xD0000000#32 ≠ some (.map 0 0) := by decide

theorem witness_UnmapRule :
    (opField 0x90000002#32 = 9#4 ∧ reservedField 0x90000002#32 = 0#19) ∧
    (let s := withSegment [(2, 1)];
      s.regs[2] ≠ 0#32 ∧ s.mem.slots[s.regs[2].toNat]? = some (.live (.ofWords [7, 8, 9]))) ∧
    (withSegment []).regs[2] = 0#32 ∧
    (let s := withSegment [(2, 2)]; s.mem.slots.length ≤ s.regs[2].toNat) ∧
    wFreed.mem.slots[(wFreed.writeReg 2 1).regs[2].toNat]? = some .empty := by decide

theorem witness_LoadZeroCopies :
    (let m := (withSegment []).mem; 1#32 ≠ 0#32 ∧ m.slots[(1#32).toNat]? = some (.live (.ofWords [7, 8, 9]))) ∧
    (let m := (withSegment []).mem; 2#32 ≠ 0#32 ∧ m.slots.length ≤ (2#32).toNat) ∧
    (∃ m', (withSegment []).mem.load0 1#32 = .ok m' ∧ (∃ m2, m'.write 1#32 2#32 0#32 = .ok m2) ∧
      ∃ m2, m'.write 0#32 2#32 0#32 = .ok m2) :=
  ⟨by decide, by decide, _, rfl, ⟨_, rfl⟩, _, rfl⟩

theorem witness_SegmentsNeverAlias :
    ((withSegment []).mem.wf = true ∧ ∃ m', (withSegment []).mem.write 1#32 2#32 5#32 = .ok m') ∧
    (w0.mem.Inv ∧ ∃ m', w0.mem.alloc 3#32 = .ok (1#32, m')) :=
  ⟨⟨by decide, _, rfl⟩, w0_inv.mem, _, rfl⟩

theorem witness_FreshIdentifiers :
    (w0.mem.Inv ∧ ∃ m', w0.mem.alloc 3#32 = .ok (1#32, m')) ∧ [3#32, 0#32].length < 2 ^ 32 :=
  ⟨⟨w0_inv.mem, _, rfl⟩, by decide⟩

theorem witness_IdentifierReuseIsFifo : w0.mem.Inv ∧ w0.mem.freeq = [] ∧ w0.mem.slots.length + 2 ≤ 2 ^ 32 :=
  ⟨w0_inv.mem, rfl, by decide⟩

theorem witness_SlotsKeepTheirLengths :
    ∃ s t : State, s.Inv ∧ exec (.unmap 2) s = .next t ∧ s.mem.slots[1]? = some (.live (.zeros 3)) :=
  ⟨{ withRegs [(2, 1)] with mem := { slots := [.live (.ofWords [0x70000000#32]), .live (.zeros 3)], freeq := [] } }, _,
    ⟨Memory.alloc_inv (m := w0.mem) (n := 3#32) (id := 1#32) w0_inv.mem rfl⟩, rfl, rfl⟩

theorem witness_NextFetchSeesTheStore :
    (let s := (withProgram [0, 0]).writeReg 2 1;
      s.mem.wf = true ∧ s.mem.slots[0]? = some (.live (.ofWords [0, 0])) ∧ s.regs[1] = 0#32 ∧
      s.regs[2] = s.pc + 1#32 ∧ s.regs[2].toNat < 2) ∧
    (let s := withSegment [(2, 1)];
      s.regs[2] ≠ 0#32 ∧ s.mem.slots[s.regs[2].toNat]? = some (.live (.ofWords [7, 8, 9]))) := by decide

theorem witness_OutRule :
    (opField 0xA0000001#32 = 10#4 ∧ reservedField 0xA0000001#32 = 0#19) ∧ (withRegs [(1, 255)]).regs[1].toNat ≤ 255 ∧
    255 < (withRegs [(1, 256)]).regs[1].toNat := by decide

theorem witness_InRule :
    (opField 0xB0000001#32 = 11#4 ∧ reservedField 0xB0000001#32 = 0#19) ∧
    ({ State.reset with inq := [0x41] } : State).inq = 0x41 :: [] ∧
    (State.reset.inq = [] ∧ State.reset.inClosed = true) ∧
    (let s := { State.reset with inClosed := false }; s.inq = [] ∧ s.inClosed = false) := by decide

theorem witness_InRule_held :
    ∃ t, exec (.inp 1) { State.reset with inClosed := false } = .next t := ⟨_, rfl⟩

theorem witness_OutputGrowsByOut : ∃ t, stepWith false (withProgram [0xA0000001#32]) = .next t ∧ t.outq = [0] :=
  ⟨_, rfl, by decide⟩

theorem witness_InputTakenByIn : ∃ t, exec (.inp 1) { State.reset with inq := [0x41] } = .next t ∧ t.inq = [] :=
  ⟨_, rfl, by decide⟩

theorem witness_EndOfStreamIsSticky :
    State.reset.inq = [] ∧ State.reset.inClosed = true ∧ Reaches false State.reset (State.reset.host (.supply 1)) :=
  ⟨rfl, rfl, .host _ .start⟩

theorem witness_LoadpRule :
    (opField 0xC0000010#32 = 12#4 ∧ reservedField 0xC0000010#32 = 0#19) ∧ (withSegment []).regs[0] = 0#32 ∧
    (let s := withSegment [(2, 1)];
      s.regs[2] ≠ 0#32 ∧ s.mem.slots[s.regs[2].toNat]? = some (.live (.ofWords [7, 8, 9]))) ∧
    (let s := withSegment [(2, 2)]; s.regs[2] ≠ 0#32 ∧ s.mem.slots.length ≤ s.regs[2].toNat) := by decide

theorem witness_LoadvRule : opField 0xDFFFFFFF#32 = 13#4 ∧ 2 ^ 25 - 1 < 2 ^ 25 := by decide

theorem witness_FaultCauses :
    w0.Inv ∧ (∃ t, stepWith false (w0.jump 1) = .next t ∧ t.run = .faulted .outOfBounds) ∧
    (w0.jump 1).Inv := ⟨w0_inv, ⟨_, rfl, rfl⟩, ⟨w0_inv.mem⟩⟩

theorem witness_FaultCauses_each :
    answer (stepWith false (withProgram [0xF0000000#32])) (·.run) = some (.faulted .malformedProgram) ∧
    answer (stepWith false (withProgram [0x90000000#32])) (·.run) = some (.faulted .invalidSegment) ∧
    answer (stepWith false (withProgram [0x50000000#32])) (·.run) = some (.faulted .divisionByZero) ∧
    answer (stepWith false ((withProgram [0xA0000000#32]).writeReg 0 256)) (·.run) =
      some (.faulted .outputRangeViolation) ∧
    answer (stepWith false { withProgram [0x80000000#32] with memLimits := [[⟨0, 0⟩]] }) (·.run) =
      some (.faulted .resourceExhausted) := by decide

theorem witness_FaultsArePrecise :
    ∃ t, stepWith false (withProgram [0x50000000#32]) = .next t ∧ t.run = .faulted .divisionByZero := ⟨_, rfl, rfl⟩

theorem witness_HaltedOnlyByHalt : ∃ t, stepWith false w0 = .next t ∧ t.run = .halted := ⟨_, rfl, rfl⟩

theorem witness_TerminalStatesAreFinal :
    let s := { w0 with run := .halted }
    s.run ≠ .running ∧ Reaches false s (s.host (.supply 1)) := ⟨by decide, .host _ .start⟩

theorem witness_StatusOutput :
    (let s := { withProgram [0xB0000001#32] with inClosed := false };
      s.run = .running ∧ s.mem.read 0#32 s.pc = .ok 0xB0000001#32 ∧ decode false 0xB0000001#32 = some (.inp 1) ∧
      s.inq = [] ∧ s.inClosed = false) ∧
    (w0.run = .running ∧ w0.inClosed = true) ∧ ({ w0 with run := .halted } : State).run = .halted ∧
    ({ w0 with run := .faulted .resourceExhausted } : State).run = .faulted .resourceExhausted := by decide

theorem witness_LoaderIsBigEndian :
    [1, 2, 3, (4 : Byte)].length % 4 = 0 ∧ [1, 2, (3 : Byte)].length % 4 ≠ 0 := by decide

theorem witness_BootMeetsInvariant : [0x70000000#32].length < 2 ^ 32 := by decide

theorem witness_StepKeepsInvariant :
    w0.Inv ∧ (∃ t, stepWith true w0 = .next t) ∧ ∃ t, Sys2Proof.Machine.step w0 = .next t :=
  ⟨w0_inv, ⟨_, rfl⟩, _, rfl⟩

theorem witness_SlotZeroAlwaysLive :
    [0x70000000#32].length < 2 ^ 32 ∧
    Reaches false (State.boot [0x70000000#32] [] true []) ((State.boot [0x70000000#32] [] true []).setRun .halted) :=
  ⟨by decide, .step .start rfl⟩

theorem witness_FreeQueueHoldsEmptySlots :
    (∃ m, (withSegment []).mem.free 1#32 = .ok m) ∧ wFreed.mem.freeq = 1#32 :: [] ∧
    ∃ m, wFreed.mem.alloc 2#32 = .ok (1#32, m) := ⟨⟨_, rfl⟩, rfl, _, rfl⟩

end Sys2Proof.Tests
end

section
/-! PROOFS. MEM_CAPACITY, the parameter that 00_scope.md R9 leaves open: MAP under a given capacity, the step at a
decoded instruction, and that the model's own field `memLimits` takes no part in a step beside MAP's own check. -/

namespace Sys2Proof.Machine

variable {s t : State} {a b c : RegIdx} {cap : Word → Bool} {reject : Bool}

/-! ### The capacity that the state's own field says -/

/-- A length can be had exactly when it lies outside every range of the entry that is up (log entry 4). -/
theorem State.memCapacity_eq_true {n : Word} :
    s.memCapacity n = true ↔ ∀ r ∈ s.memLimits.headD [], n.toNat < r.lo.toNat ∨ r.hi.toNat < n.toNat := by
  rw [← Bool.not_eq_false, State.memCapacity_eq_false]
  push Not
  exact forall₂_congr fun r _ => by omega

/-- Past the capacity check an allocation succeeds while an identifier is left (20_memory.md R44). -/
theorem Memory.exists_alloc_eq_ok {m : Memory} (h : m.freeq ≠ [] ∨ m.slots.length < 2 ^ 32) (n : Word) :
    ∃ id m', m.alloc n = .ok (id, m') := by
  cases ha : m.alloc n with
  | ok p => exact ⟨p.1, p.2, rfl⟩
  | error cause =>
    obtain ⟨hq, hfull, -⟩ := Memory.alloc_eq_error.mp ha
    rcases h with hne | hlt
    · exact absurd hq hne
    · omega

/-! ### MAP under a given capacity, one equation per outcome (43_halt_segment.md R151) -/

theorem execMapUnder_of_refused (hc : cap (s.readReg c) = false) :
    execMapUnder cap b c s = .next (s.setRun (.faulted .resourceExhausted)) := by
  simp [execMapUnder, State.segAlloc_eq_error.mpr (.inl ⟨hc, rfl⟩)]

theorem execMapUnder_of_alloc_ok {id : Word} {m : Memory} (hc : cap (s.readReg c) = true)
    (ha : s.mem.alloc (s.readReg c) = .ok (id, m)) :
    execMapUnder cap b c s = .next
      (State.writeReg { s with mem := m, memLimits := limitsAfterGrant s.memLimits } b id).advance := by
  simp [execMapUnder, State.segAlloc_eq_ok.mpr ⟨hc, m, ha, rfl⟩]

theorem execMapUnder_of_alloc_error {cause : Cause} (hc : cap (s.readReg c) = true)
    (ha : s.mem.alloc (s.readReg c) = .error cause) :
    execMapUnder cap b c s = .next (s.setRun (.faulted cause)) := by
  simp [execMapUnder, State.segAlloc_eq_error.mpr (.inr ⟨hc, ha⟩)]

/-- While an identifier is left, a running MAP stays running where the capacity is true and faults ResourceExhausted
where it is false. -/
theorem exec_map_run (hr : s.run = .running) (hid : s.mem.freeq ≠ [] ∨ s.mem.slots.length < 2 ^ 32) :
    ∃ t, exec (.map b c) s = .next t ∧
      (t.run = .faulted .resourceExhausted ↔ s.memCapacity (s.readReg c) = false) ∧
      (t.run = .running ↔ s.memCapacity (s.readReg c) = true) := by
  cases hc : s.memCapacity (s.readReg c) with
  | false => exact ⟨_, execMapUnder_of_refused hc, by simp⟩
  | true =>
    obtain ⟨id, m, ha⟩ := Memory.exists_alloc_eq_ok hid (s.readReg c)
    exact ⟨_, execMapUnder_of_alloc_ok hc ha, by simp [hr]⟩

/-- A MAP after which the block still runs was granted, and moved the limits on. -/
theorem memLimits_of_exec_map (h : exec (.map b c) s = .next t) (ht : t.run = .running) :
    t.memLimits = limitsAfterGrant s.memLimits := by
  obtain ⟨id, m, -, -, rfl⟩ | ⟨-, rfl⟩ | ⟨-, cause, -, rfl⟩ := execMap_inv h
  · rfl
  · simp at ht
  · simp at ht

/-- Settles O28: the entry that is up says the capacity (`memCapacity_eq_false`, `memCapacity_eq_true`), MAP follows
the capacity (`exec_map_run`), and a granted MAP moves the limits on (`memLimits_of_exec_map`). -/
theorem mapUsesLimits : Obligations.MapUsesLimits := by
  refine ⟨?_, ?_, ?_, ?_⟩
  · intro s n entry more hl
    simp [State.memCapacity_eq_false, hl]
  · intro b c s entry more hl hr hid
    obtain ⟨t, ht, hfault, hrun⟩ := exec_map_run (b := b) (c := c) hr hid
    rw [State.memCapacity_eq_false, hl] at hfault
    rw [State.memCapacity_eq_true, hl] at hrun
    exact ⟨t, ht, hfault, hrun⟩
  · intro b c s t h _ ht
    rw [memLimits_of_exec_map h ht]
    exact ⟨fun _ _ _ hl => by simp [hl], fun _ hl => by simp [hl], fun hl => by simp [hl]⟩
  · intro s n hl
    simp [State.memCapacity_eq_true, hl]

/-! ### The instruction at pc and the step -/

/-- The instruction at pc is the one that the decoder reads in the fetched word (40_execution_cycle.md R101). -/
theorem instrAt_eq_some {i : Instr} :
    s.instrAt reject = some i ↔ ∃ w, s.mem.read 0#32 s.pc = .ok w ∧ decode reject w = some i := by
  cases hf : s.mem.read 0#32 s.pc <;> simp [State.instrAt, fetch_eq, hf]

/-- A running step with an instruction at pc is that instruction's meaning (40_execution_cycle.md R111). -/
theorem stepWith_of_instrAt {i : Instr} (hr : s.run = .running) (hi : s.instrAt reject = some i) :
    stepWith reject s = exec i s := by
  obtain ⟨w, hf, hd⟩ := instrAt_eq_some.mp hi
  simp [stepWith, hr, fetch_eq, hf, hd]

/-- Under the capacity that the state's own field says, the step is `stepWith`'s (log entry 4). -/
theorem stepUnder_memCapacity : stepUnder s.memCapacity reject s = stepWith reject s := by
  unfold stepUnder
  split
  next b c hr hi => exact (stepWith_of_instrAt hr hi).symm
  next => rfl

/-- A step under a given capacity is of a running block, and is either a MAP under that capacity or, with no MAP at
pc, a step of `stepWith`. -/
theorem stepUnder_inv (h : stepUnder cap reject s = .next t) :
    s.run = .running ∧
    ((∃ b c, s.instrAt reject = some (.map b c) ∧ execMapUnder cap b c s = .next t) ∨
     ((∀ b c, s.instrAt reject ≠ some (.map b c)) ∧ stepWith reject s = .next t)) := by
  unfold stepUnder at h
  split at h
  next b c hr hi => exact ⟨hr, .inl ⟨b, c, hi, h⟩⟩
  next hno =>
    have hr := (stepWith_inv h).1
    exact ⟨hr, .inr ⟨fun b c hi => hno b c hr hi, h⟩⟩

/-! ### The model's own field plays no part

`State.withLimits` changes `memLimits` alone. No operation but the ALLOC request reads or writes that field, so every
operation commutes with it, and so does every meaning but MAP's. -/

/-- The model's own limits changed, nothing else. -/
def State.withLimits (s : State) (limits : List (List LengthRange)) : State := { s with memLimits := limits }

section WithLimits

variable {limits : List (List LengthRange)}

@[simp] theorem State.withLimits_run : (s.withLimits limits).run = s.run := rfl
@[simp] theorem State.withLimits_mem : (s.withLimits limits).mem = s.mem := rfl
@[simp] theorem State.withLimits_memLimits : (s.withLimits limits).memLimits = limits := rfl
@[simp] theorem State.readReg_withLimits (i : RegIdx) : (s.withLimits limits).readReg i = s.readReg i := rfl
@[simp] theorem State.fetch_withLimits : (s.withLimits limits).fetch = s.fetch := rfl
@[simp] theorem State.offer_withLimits : (s.withLimits limits).offer = s.offer := rfl

@[simp] theorem State.writeReg_withLimits (i : RegIdx) (v : Word) :
    (s.withLimits limits).writeReg i v = (s.writeReg i v).withLimits limits := rfl
@[simp] theorem State.jump_withLimits (target : Word) :
    (s.withLimits limits).jump target = (s.jump target).withLimits limits := rfl
@[simp] theorem State.advance_withLimits : (s.withLimits limits).advance = s.advance.withLimits limits := rfl
@[simp] theorem State.setRun_withLimits (r : RunState) :
    (s.withLimits limits).setRun r = (s.setRun r).withLimits limits := rfl
@[simp] theorem State.setMem_withLimits (m : Memory) :
    (s.withLimits limits).setMem m = (s.setMem m).withLimits limits := rfl
@[simp] theorem State.outByte_withLimits (v : Byte) :
    (s.withLimits limits).outByte v = (s.outByte v).withLimits limits := rfl
@[simp] theorem State.takeInput_withLimits : (s.withLimits limits).takeInput = s.takeInput.withLimits limits := rfl

theorem execCmov_withLimits (h : execCmov a b c s = .next t) :
    execCmov a b c (s.withLimits limits) = .next (t.withLimits limits) := by
  obtain ⟨hc, rfl⟩ | ⟨hc, rfl⟩ := execCmov_inv h
  · simp [execCmov, State.operands, hc]
  · simp [execCmov, State.operands, hc]

theorem execSload_withLimits (h : execSload a b c s = .next t) :
    execSload a b c (s.withLimits limits) = .next (t.withLimits limits) := by
  obtain ⟨w, hr, rfl⟩ | ⟨cause, hr, rfl⟩ := execSload_inv h
  · simp [execSload, State.operands, State.memRead, hr]
  · simp [execSload, State.operands, State.memRead, hr]

theorem execSstore_withLimits (h : execSstore a b c s = .next t) :
    execSstore a b c (s.withLimits limits) = .next (t.withLimits limits) := by
  obtain ⟨m, hw, rfl⟩ | ⟨cause, hw, rfl⟩ := execSstore_inv h
  · simp [execSstore, State.operands, State.memWrite, hw]
  · simp [execSstore, State.operands, State.memWrite, hw]

theorem aluWrite_withLimits {f : Word → Word → Word} (h : aluWrite f a b c s = .next t) :
    aluWrite f a b c (s.withLimits limits) = .next (t.withLimits limits) := by
  obtain rfl := aluWrite_inv h
  rfl

theorem execDiv_withLimits (h : execDiv a b c s = .next t) :
    execDiv a b c (s.withLimits limits) = .next (t.withLimits limits) := by
  obtain ⟨hc, rfl⟩ | ⟨hc, rfl⟩ := execDiv_inv h
  · simp [execDiv, aluWrite, State.operands, hc]
  · simp [execDiv, hc]

theorem execHalt_withLimits (h : execHalt s = .next t) :
    execHalt (s.withLimits limits) = .next (t.withLimits limits) := by
  obtain rfl := execHalt_inv h
  rfl

theorem execUnmap_withLimits (h : execUnmap c s = .next t) :
    execUnmap c (s.withLimits limits) = .next (t.withLimits limits) := by
  obtain ⟨m, hf, rfl⟩ | ⟨cause, hf, rfl⟩ := execUnmap_inv h
  · simp [execUnmap, State.segFree, hf]
  · simp [execUnmap, State.segFree, hf]

theorem execOut_withLimits (h : execOut c s = .next t) :
    execOut c (s.withLimits limits) = .next (t.withLimits limits) := by
  obtain ⟨hv, rfl⟩ | ⟨hv, rfl⟩ := execOut_inv h
  · simp [execOut, fitsByte_eq_true.mpr hv]
  · simp [execOut, fitsByte_eq_false.mpr hv]

theorem execInp_withLimits (h : execInp c s = .next t) :
    execInp c (s.withLimits limits) = .next (t.withLimits limits) := by
  obtain ⟨ho, rfl⟩ | ⟨v, ho, rfl⟩ | ⟨ho, rfl⟩ := execInp_inv h
  · simp [execInp, ho]
  · simp [execInp, ho, inputWord]
  · simp [execInp, ho, inputWord]

theorem execLoadp_withLimits (h : execLoadp b c s = .next t) :
    execLoadp b c (s.withLimits limits) = .next (t.withLimits limits) := by
  obtain ⟨hb, rfl⟩ | ⟨hb, m, hl, rfl⟩ | ⟨hb, cause, hl, rfl⟩ := execLoadp_inv h
  · simp [execLoadp, hb]
  · simp [execLoadp, hb, State.segLoad0, hl]
  · simp [execLoadp, hb, State.segLoad0, hl]

theorem execLoadv_withLimits {imm : Nat} (h : execLoadv a imm s = .next t) :
    execLoadv a imm (s.withLimits limits) = .next (t.withLimits limits) := by
  obtain rfl := execLoadv_inv h
  rfl

/-- Every instruction but MAP does the same under other limits, and leaves them alone. -/
theorem exec_withLimits {i : Instr} (hi : ∀ b c, i ≠ .map b c) (h : exec i s = .next t) :
    exec i (s.withLimits limits) = .next (t.withLimits limits) := by
  cases i with
  | cmov a b c => exact execCmov_withLimits h
  | sload a b c => exact execSload_withLimits h
  | sstore a b c => exact execSstore_withLimits h
  | add a b c => exact aluWrite_withLimits (f := aluAdd) h
  | mul a b c => exact aluWrite_withLimits (f := aluMul) h
  | div a b c => exact execDiv_withLimits h
  | nand a b c => exact aluWrite_withLimits (f := aluNand) h
  | halt => exact execHalt_withLimits h
  | map b c => exact absurd rfl (hi b c)
  | unmap c => exact execUnmap_withLimits h
  | out c => exact execOut_withLimits h
  | inp c => exact execInp_withLimits h
  | loadp b c => exact execLoadp_withLimits h
  | loadv a imm => exact execLoadv_withLimits h

/-- With no MAP at pc the step does the same under other limits, and leaves them alone. -/
theorem stepWith_withLimits (hi : ∀ b c, s.instrAt reject ≠ some (.map b c)) (h : stepWith reject s = .next t) :
    stepWith reject (s.withLimits limits) = .next (t.withLimits limits) := by
  obtain ⟨hr, ⟨cause, hf, rfl⟩ | ⟨w, hf, hd, rfl⟩ | ⟨w, i, hf, hd, he⟩⟩ := stepWith_inv h
  · simp [stepWith, hr, hf]
  · simp [stepWith, hr, hf, hd]
  · have hat : s.instrAt reject = some i := instrAt_eq_some.mpr ⟨w, hf, hd⟩
    have hmap : ∀ b c, i ≠ .map b c := fun b c e => hi b c (e ▸ hat)
    rw [stepWith_of_instrAt (s := s.withLimits limits) hr hat]
    exact exec_withLimits hmap he

/-- MAP under a given capacity does the same under other limits, and only a granted one moves them on. -/
theorem execMapUnder_withLimits (h : execMapUnder cap b c s = .next t) :
    ∃ left, execMapUnder cap b c (s.withLimits limits) = .next (t.withLimits left) := by
  obtain ⟨id, m, hc, ha, rfl⟩ | ⟨hc, rfl⟩ | ⟨hc, cause, ha, rfl⟩ := execMapUnder_inv h
  · exact ⟨limitsAfterGrant limits, execMapUnder_of_alloc_ok (s := s.withLimits limits) hc ha⟩
  · exact ⟨limits, execMapUnder_of_refused (s := s.withLimits limits) hc⟩
  · exact ⟨limits, execMapUnder_of_alloc_error (s := s.withLimits limits) hc ha⟩

/-- Under a given capacity the step does the same under other limits. -/
theorem stepUnder_withLimits (h : stepUnder cap reject s = .next t) :
    ∃ left, stepUnder cap reject (s.withLimits limits) = .next (t.withLimits left) := by
  obtain ⟨hr, ⟨b, c, hi, he⟩ | ⟨hi, he⟩⟩ := stepUnder_inv h
  · rw [stepUnder_map (s := s.withLimits limits) hr hi]
    exact execMapUnder_withLimits he
  · rw [stepUnder_of_not_map (s := s.withLimits limits) hi]
    exact ⟨limits, stepWith_withLimits hi he⟩

end WithLimits

/-- A granted MAP, its whole next state: the identifier in x[B], the memory the allocation left, pc gone on, and the
limits moved on. -/
theorem execMapUnder_granted {id : Word} {m : Memory} (hc : cap s.regs[c] = true)
    (ha : s.mem.alloc s.regs[c] = .ok (id, m)) :
    ∃ limits, execMapUnder cap b c s = .next
      { s with regs := s.regs.set b id, pc := s.pc + 1#32, memLimits := limits, mem := m } := by
  refine ⟨limitsAfterGrant s.memLimits, ?_⟩
  rw [execMapUnder_of_alloc_ok hc ha, State.advance_eq]
  rfl

/-- Settles O30: a MAP at pc is MAP under the argument (`stepUnder_map`) with its two grants and its refusal, any other
step is `stepWith`'s, and the field `memLimits` plays no part (`stepUnder_withLimits`). -/
theorem capacityIsAnArgument : Obligations.CapacityIsAnArgument := by
  intro cap reject s
  refine ⟨?_, ?_, fun _ _ h => stepUnder_withLimits h, stepUnder_memCapacity⟩
  · intro w b c hr hf hd
    rw [stepUnder_map hr (instrAt_eq_some.mpr ⟨w, hf, hd⟩)]
    refine ⟨execMapUnder_of_refused, ?_, ?_⟩
    · intro id rest hc hq
      exact execMapUnder_granted hc (Memory.alloc_eq_ok.mpr (.inl ⟨rest, hq, rfl⟩))
    · intro hc hq hlt
      exact execMapUnder_granted hc (Memory.alloc_eq_ok.mpr (.inr ⟨hq, hlt, rfl, by rw [hq]; rfl⟩))
  · intro hno
    refine stepUnder_of_not_map fun b c hi => ?_
    obtain ⟨w, hf, hd⟩ := instrAt_eq_some.mp hi
    exact hno w b c hf hd

end Sys2Proof.Machine
end

section
/-! PROOFS. The machine's state (10_state.md): MEM_CAPACITY as a predicate that stands for a whole run (R32), how a
run state is left (R24), the STATUS output (R25), and the invariant at reset (R33). -/

namespace Sys2Proof.Machine

variable {s t : State} {reject : Bool}

/-! ### A capacity that stands (log entry 4) -/

@[simp] theorem host_memLimits (e : HostEvent) : (s.host e).memLimits = s.memLimits := by
  cases e with
  | close => rfl
  | supply v => by_cases h : s.inClosed = true <;> simp [State.host, h]

/-- Every instruction but MAP leaves the limits alone, since it does the same under those it already has. -/
theorem memLimits_of_exec_of_not_map {i : Instr} (hi : ∀ b c, i ≠ .map b c) (h : exec i s = .next t) :
    t.memLimits = s.memLimits := by
  have hsame : exec i s = .next (t.withLimits s.memLimits) := exec_withLimits (limits := s.memLimits) hi h
  have ht : t = t.withLimits s.memLimits := by simpa [h] using hsame
  calc t.memLimits = (t.withLimits s.memLimits).memLimits := congrArg State.memLimits ht
    _ = s.memLimits := State.withLimits_memLimits

/-- An instruction leaves the limits alone or moves them on as one granted request does. -/
theorem exec_memLimits {i : Instr} (h : exec i s = .next t) :
    t.memLimits = s.memLimits ∨ t.memLimits = limitsAfterGrant s.memLimits := by
  by_cases hi : ∃ b c, i = .map b c
  · obtain ⟨b, c, rfl⟩ := hi
    obtain ⟨id, m, -, -, rfl⟩ | ⟨-, rfl⟩ | ⟨-, cause, -, rfl⟩ := execMap_inv h
    · exact .inr rfl
    · exact .inl rfl
    · exact .inl rfl
  · push Not at hi
    exact .inl (memLimits_of_exec_of_not_map hi h)

/-- A step leaves the limits alone or moves them on as one granted request does. -/
theorem stepWith_memLimits (h : stepWith reject s = .next t) :
    t.memLimits = s.memLimits ∨ t.memLimits = limitsAfterGrant s.memLimits := by
  obtain ⟨-, ⟨cause, -, rfl⟩ | ⟨w, -, -, rfl⟩ | ⟨w, i, -, -, he⟩⟩ := stepWith_inv h
  · exact .inl rfl
  · exact .inl rfl
  · exact exec_memLimits he

/-- A last entry stands: it is the only one in all that can come of the state. -/
theorem Reaches.memLimits_of_standing {entry : List LengthRange} (hr : Reaches reject s t)
    (hs : s.memLimits = [entry]) : t.memLimits = [entry] := by
  refine hr.keeps (p := fun u => u.memLimits = [entry]) hs ?_ ?_
  · intro u v hu hstep
    obtain hv | hv := stepWith_memLimits hstep
    · rw [hv, hu]
    · rw [hv, hu, limitsAfterGrant_standing]
  · intro u e hu
    rw [host_memLimits, hu]

/-- The entry that refuses the listed lengths and no other: one range for each. -/
def refusalsOf (ns : List Word) : List LengthRange := ns.map fun n => { lo := n, hi := n }

/-- Under `refusalsOf ns` a length cannot be had exactly when it is listed. -/
theorem State.memCapacity_refusalsOf {ns : List Word} {n : Word} (hs : s.memLimits = [refusalsOf ns]) :
    s.memCapacity n = false ↔ n ∈ ns := by
  have hpoint : ∀ k : Word, k.toNat ≤ n.toNat ∧ n.toNat ≤ k.toNat ↔ k = n := fun k => by
    rw [← Nat.le_antisymm_iff, BitVec.toNat_inj]
  simp [State.memCapacity_eq_false, hs, refusalsOf, hpoint]

/-- Under the one range from `bound` to the largest word, the lengths to be had are those below `bound`. -/
theorem State.memCapacity_below {bound n : Word} (hs : s.memLimits = [[{ lo := bound, hi := 0xFFFFFFFF#32 }]]) :
    s.memCapacity n = true ↔ n.toNat < bound.toNat := by
  have hn : ¬ 0xFFFFFFFF < n.toNat := by omega
  simp [State.memCapacity_eq_true, hs, hn]

/-- There are finitely many words, so those that a predicate refuses can be listed. -/
theorem exists_list_mem_iff_eq_false (p : Word → Bool) : ∃ ns : List Word, ∀ n, n ∈ ns ↔ p n = false := by
  have : Finite Word := Finite.of_injective BitVec.toFin fun _ _ => BitVec.eq_of_toFin_eq
  obtain ⟨refused, hmem⟩ := (Set.toFinite {n : Word | p n = false}).exists_finset
  exact ⟨refused.toList, fun n => by rw [Finset.mem_toList, hmem, Set.mem_ofPred_eq]⟩

/-- Settles O29: a last entry stands (`Reaches.memLimits_of_standing`), and an entry can refuse any set of lengths
(`State.memCapacity_refusalsOf`), among them all from a bound on (`State.memCapacity_below`). -/
theorem capacityStands : Obligations.CapacityStands := by
  refine ⟨fun p => ?_, fun reject s t bound hs hr n => State.memCapacity_below (hr.memLimits_of_standing hs)⟩
  obtain ⟨refused, hmem⟩ := exists_list_mem_iff_eq_false p
  refine ⟨refusalsOf refused, fun reject s t hs hr n => ?_⟩
  have hrefused : t.memCapacity n = false ↔ p n = false :=
    (State.memCapacity_refusalsOf (hr.memLimits_of_standing hs)).trans (hmem n)
  exact Bool.not_inj (Bool.coe_false_iff_false.mp hrefused)

/-! ### How the run state changes (10_state.md R24) -/

/-- Every instruction but HALT leaves the run state alone, or faults and changes nothing else. -/
theorem exec_run_of_ne_halt {i : Instr} (hi : i ≠ .halt) (h : exec i s = .next t) :
    t.run = s.run ∨ ∃ cause, t = s.setRun (.faulted cause) := by
  cases i with
  | cmov a b c =>
    obtain ⟨-, rfl⟩ | ⟨-, rfl⟩ := execCmov_inv h
    · exact .inl rfl
    · exact .inl rfl
  | sload a b c =>
    obtain ⟨w, -, rfl⟩ | ⟨cause, -, rfl⟩ := execSload_inv h
    · exact .inl rfl
    · exact .inr ⟨cause, rfl⟩
  | sstore a b c =>
    obtain ⟨m, -, rfl⟩ | ⟨cause, -, rfl⟩ := execSstore_inv h
    · exact .inl rfl
    · exact .inr ⟨cause, rfl⟩
  | add a b c =>
    obtain rfl := aluWrite_inv (f := aluAdd) h
    exact .inl rfl
  | mul a b c =>
    obtain rfl := aluWrite_inv (f := aluMul) h
    exact .inl rfl
  | div a b c =>
    obtain ⟨-, rfl⟩ | ⟨-, rfl⟩ := execDiv_inv h
    · exact .inl rfl
    · exact .inr ⟨_, rfl⟩
  | nand a b c =>
    obtain rfl := aluWrite_inv (f := aluNand) h
    exact .inl rfl
  | halt => exact absurd rfl hi
  | map b c =>
    obtain ⟨id, m, -, -, rfl⟩ | ⟨-, rfl⟩ | ⟨-, cause, -, rfl⟩ := execMap_inv h
    · exact .inl rfl
    · exact .inr ⟨_, rfl⟩
    · exact .inr ⟨cause, rfl⟩
  | unmap c =>
    obtain ⟨m, -, rfl⟩ | ⟨cause, -, rfl⟩ := execUnmap_inv h
    · exact .inl rfl
    · exact .inr ⟨cause, rfl⟩
  | out c =>
    obtain ⟨-, rfl⟩ | ⟨-, rfl⟩ := execOut_inv h
    · exact .inl rfl
    · exact .inr ⟨_, rfl⟩
  | inp c =>
    obtain ⟨-, rfl⟩ | ⟨v, -, rfl⟩ | ⟨-, rfl⟩ := execInp_inv h
    · exact .inl rfl
    · exact .inl rfl
    · exact .inl rfl
  | loadp b c =>
    obtain ⟨-, rfl⟩ | ⟨-, m, -, rfl⟩ | ⟨-, cause, -, rfl⟩ := execLoadp_inv h
    · exact .inl rfl
    · exact .inl rfl
    · exact .inr ⟨cause, rfl⟩
  | loadv a imm =>
    obtain rfl := execLoadv_inv h
    exact .inl rfl

/-- A step leaves the block running, or changes the run state alone: to Faulted, or to Halted at a HALT. -/
theorem stepWith_run (h : stepWith reject s = .next t) :
    t.run = .running ∨ (∃ cause, t = s.setRun (.faulted cause)) ∨
      (∃ w, s.fetch = .ok w ∧ decode reject w = some .halt) ∧ t = s.setRun .halted := by
  obtain ⟨hr, ⟨cause, -, rfl⟩ | ⟨w, -, -, rfl⟩ | ⟨w, i, hf, hd, he⟩⟩ := stepWith_inv h
  · exact .inr (.inl ⟨cause, rfl⟩)
  · exact .inr (.inl ⟨_, rfl⟩)
  · by_cases hi : i = .halt
    · subst hi
      exact .inr (.inr ⟨⟨w, hf, hd⟩, execHalt_inv he⟩)
    · obtain hrun | hfault := exec_run_of_ne_halt hi he
      · exact .inl (hrun.trans hr)
      · exact .inr (.inl hfault)

/-- Settles O47: of the ways a step can leave the run state (`stepWith_run`), only HALT's gives Halted. -/
theorem haltedOnlyByHalt : Obligations.HaltedOnlyByHalt := by
  intro reject s t h ht
  obtain hrun | ⟨cause, rfl⟩ | hhalt := stepWith_run h
  · simp [hrun] at ht
  · simp at ht
  · exact hhalt

/-! ### The STATUS output (10_state.md R25) -/

/-- The STATUS byte as a number: its two fields, with the reserved bits between them 0. -/
theorem State.status_toNat :
    (s.status reject).toNat = 16 * s.faultCode.toNat + (s.statusState reject).toNat := by
  have hstate : (s.statusState reject).toNat < 2 ^ 2 := (s.statusState reject).isLt
  simp only [State.status, BitVec.toNat_append, BitVec.toNat_ofNat]
  rw [← Nat.shiftLeft_add_eq_or_of_lt hstate, ← Nat.shiftLeft_add_eq_or_of_lt (by decide)]
  omega

theorem Cause.code_bounds (cause : Cause) : 1 ≤ cause.code.toNat ∧ cause.code.toNat ≤ 6 := by
  cases cause <;> decide

theorem isInp_eq_true {i : Option Instr} : isInp i = true ↔ ∃ c, i = some (.inp c) := by
  unfold isInp
  split <;> simp_all

/-- A block waits for input exactly when it runs, IN is at pc, and the port offers nothing. -/
theorem State.waiting_eq_true :
    s.waiting reject = true ↔
      s.run = .running ∧ (∃ c, s.instrAt reject = some (.inp c)) ∧ s.inq = [] ∧ s.inClosed = false := by
  simp [State.waiting, isInp_eq_true, State.offer_eq_nothing, and_assoc]

theorem State.status_of_halted (hr : s.run = .halted) : (s.status reject).toNat = 2 := by
  simp [State.status_toNat, State.faultCode, State.statusState, hr]

theorem State.status_of_faulted {cause : Cause} (hr : s.run = .faulted cause) :
    (s.status reject).toNat = 16 * cause.code.toNat + 3 := by
  simp [State.status_toNat, State.faultCode, State.statusState, hr]

theorem State.status_of_waiting (hw : s.waiting reject = true) : (s.status reject).toNat = 1 := by
  have hr := (State.waiting_eq_true.mp hw).1
  simp [State.status_toNat, State.faultCode, State.statusState, hr, hw]

theorem State.status_of_not_waiting (hr : s.run = .running) (hw : s.waiting reject ≠ true) :
    (s.status reject).toNat = 0 := by
  simp [State.status_toNat, State.faultCode, State.statusState, hr, hw]

/-- Settles O49: one equation per run state, the running one split by `State.waiting_eq_true`; reset runs with its
input closed, so it does not wait. -/
theorem statusOutput : Obligations.StatusOutput := by
  intro reject s
  refine ⟨State.status_of_halted, fun cause hr => ⟨State.status_of_faulted hr, cause.code_bounds⟩, ?_, ?_, ?_⟩
  · intro hr w c hf hd hq hc
    exact State.status_of_waiting (State.waiting_eq_true.mpr ⟨hr, ⟨c, instrAt_eq_some.mpr ⟨w, hf, hd⟩⟩, hq, hc⟩)
  · intro hr hno
    refine State.status_of_not_waiting hr fun hw => ?_
    obtain ⟨-, ⟨c, hi⟩, hq, hc⟩ := State.waiting_eq_true.mp hw
    obtain ⟨w, hf, hd⟩ := instrAt_eq_some.mp hi
    obtain hq' | hc' | hnot := hno
    · exact hq' hq
    · simp [hc] at hc'
    · exact hnot w c hf hd
  · refine State.status_of_not_waiting rfl fun hw => ?_
    obtain ⟨-, -, -, hopen⟩ := State.waiting_eq_true.mp hw
    exact absurd hopen (by decide)

/-! ### The invariant at reset (10_state.md R33) -/

/-- Settles O53: reset is boot with the empty image (`reset_eq_boot`), whose memory meets the invariant. -/
theorem resetMeetsInvariant : Obligations.ResetMeetsInvariant := by
  unfold Obligations.ResetMeetsInvariant
  rw [reset_eq_boot]
  exact ⟨Memory.boot_inv [] (by decide)⟩

end Sys2Proof.Machine
end

section
/-! PROOFS. The segment memory (20_memory.md): what each request changes and what it leaves, how an instruction can
change the memory, that every step keeps the invariant (R41-R45), independence of the segments (R48, R50), and the
identifiers (R42, R44, R49). -/

namespace Sys2Proof.Machine

namespace Memory

variable {m m' : Memory} {s i v n id k : Word}

/-! ### Which live segment an identifier names after each request -/

theorem live?_write {g : Segment} (hg : m.live? s = some g) (hw : m.write s i v = .ok m') (k : Word) :
    m'.live? k = if k = s then some (g.put i.toNat v) else m.live? k := by
  obtain ⟨g', hg', -, rfl⟩ := write_eq_ok.mp hw
  obtain rfl : g' = g := Option.some.inj (hg'.symm.trans hg)
  exact live?_set (slot := .live _) (lt_of_live hg) k

theorem live?_alloc (h : m.Inv) (ha : m.alloc n = .ok (id, m')) (k : Word) :
    m'.live? k = if k = id then some (.zeros n.toNat) else m.live? k := by
  obtain ⟨rest, hq, rfl⟩ | ⟨-, hlt, rfl, rfl⟩ := alloc_eq_ok.mp ha
  · have hid : m.slots[id.toNat]? = some .empty := (h.freeEmpty id).mp (by simp [hq])
    exact live?_set (slot := .live _) (List.getElem?_eq_some_iff.mp hid).1 k
  · exact live?_append hlt k

theorem live?_free (hf : m.free s = .ok m') (k : Word) :
    m'.live? k = if k = s then none else m.live? k := by
  obtain ⟨-, g, hg, rfl⟩ := free_eq_ok.mp hf
  exact live?_set (slot := .empty) (lt_of_live hg) k

theorem live?_load0 {g : Segment} (hs : s ≠ 0#32) (hg : m.live? s = some g) (hl : m.load0 s = .ok m') (k : Word) :
    m'.live? k = if k = 0#32 then some g else m.live? k := by
  obtain ⟨h0, -⟩ | ⟨-, g', hg', rfl⟩ := load0_eq_ok.mp hl
  · exact absurd h0 hs
  · obtain rfl : g' = g := Option.some.inj (hg'.symm.trans hg)
    have hlt : (0#32).toNat < m.slots.length := Nat.zero_lt_of_lt (lt_of_live hg)
    exact live?_set (s := 0#32) (slot := .live _) hlt k

/-- A read looks at nothing but the live segment that its identifier names. -/
theorem read_congr {l : Word} (h : m'.live? k = m.live? l) (j : Word) : m'.read k j = m.read l j := by
  simp only [read, h]

/-! ### Reading after a write (20_memory.md R46, R47, R50) -/

theorem read_write_same (h : m.wf = true) (hw : m.write s i v = .ok m') : m'.read s i = .ok v := by
  obtain ⟨g, hg, hi, -⟩ := write_eq_ok.mp hw
  refine read_eq_ok.mpr ⟨g.put i.toNat v, by simp [live?_write hg hw], hi, ?_⟩
  rw [Segment.get_put (live_wf_of_wf h hg), if_pos rfl]

/-- A write to a segment is not seen in another. -/
theorem read_write_of_ne (hw : m.write s i v = .ok m') (hk : k ≠ s) (j : Word) : m'.read k j = m.read k j := by
  obtain ⟨g, hg, -, -⟩ := write_eq_ok.mp hw
  exact read_congr (by rw [live?_write hg hw, if_neg hk]) j

/-- A write changes no other word of its segment. -/
theorem read_write_of_ne_index (h : m.wf = true) (hw : m.write s i v = .ok m') {j : Word} (hj : j ≠ i) :
    m'.read s j = m.read s j := by
  obtain ⟨g, hg, -, -⟩ := write_eq_ok.mp hw
  have hg' : m'.live? s = some (g.put i.toNat v) := by simp [live?_write hg hw]
  rw [read_live hg', read_live hg, Segment.get_put (live_wf_of_wf h hg), if_neg (toNat_ne hj), Segment.put_len]

/-! ### Reading after LOAD0 and after an allocation (20_memory.md R44, R48) -/

theorem read_load0_zero (hs : s ≠ 0#32) (hl : m.load0 s = .ok m') (i : Word) : m'.read 0#32 i = m.read s i := by
  obtain ⟨h0, -⟩ | ⟨-, g, hg, -⟩ := load0_eq_ok.mp hl
  · exact absurd h0 hs
  · exact read_congr (by rw [live?_load0 hs hg hl, if_pos rfl, hg]) i

theorem read_load0_of_ne (hl : m.load0 s = .ok m') (hk : k ≠ 0#32) (i : Word) : m'.read k i = m.read k i := by
  obtain ⟨-, rfl⟩ | ⟨hs, g, hg, -⟩ := load0_eq_ok.mp hl
  · rfl
  · exact read_congr (by rw [live?_load0 hs hg hl, if_neg hk]) i

theorem read_alloc_same (h : m.Inv) (ha : m.alloc n = .ok (id, m')) (hi : i.toNat < n.toNat) :
    m'.read id i = .ok 0#32 :=
  read_eq_ok.mpr ⟨.zeros n.toNat, by simp [live?_alloc h ha], hi, rfl⟩

theorem read_alloc_of_ne (h : m.Inv) (ha : m.alloc n = .ok (id, m')) (hk : k ≠ id) (i : Word) :
    m'.read k i = m.read k i :=
  read_congr (by rw [live?_alloc h ha, if_neg hk]) i

/-! ### The identifier an allocation gives, and the free-id queue (20_memory.md R42, R44, R45, R49) -/

theorem Inv.live?_of_mem_freeq (h : m.Inv) (hid : id ∈ m.freeq) : m.live? id = none :=
  live?_eq_none_of (.inr ((h.freeEmpty id).mp hid))

/-- The identifier that an allocation gives named no live segment before. -/
theorem live?_of_alloc (h : m.Inv) (ha : m.alloc n = .ok (id, m')) : m.live? id = none := by
  obtain ⟨rest, hq, -⟩ | ⟨-, hlt, rfl, -⟩ := alloc_eq_ok.mp ha
  · exact h.live?_of_mem_freeq (by simp [hq])
  · exact live?_eq_none_of (.inl (by rw [BitVec.toNat_ofNat, Nat.mod_eq_of_lt hlt]))

/-- Identifier 0 is never given, since segment 0 is live. -/
theorem alloc_ne_zero (h : m.Inv) (ha : m.alloc n = .ok (id, m')) : id ≠ 0#32 := by
  rintro rfl
  obtain ⟨g, hg⟩ := h.zeroLive
  have hlive : m.live? 0#32 = some g := live?_eq_some.mpr hg
  simp [live?_of_alloc h ha] at hlive

/-- With an identifier waiting, an allocation takes the one at the front. -/
theorem alloc_takes_front {x : Word} {rest : List Word} (hq : m.freeq = x :: rest) (ha : m.alloc n = .ok (id, m')) :
    id = x ∧ m'.freeq = rest := by
  obtain ⟨rest', hq', rfl⟩ | ⟨hnil, -⟩ := alloc_eq_ok.mp ha
  · obtain ⟨rfl, rfl⟩ := List.cons.inj (hq'.symm.trans hq)
    exact ⟨rfl, rfl⟩
  · simp [hq] at hnil

/-- With none waiting, an allocation takes the next identifier and adds its slot at the end. -/
theorem alloc_adds_slot (hq : m.freeq = []) (ha : m.alloc n = .ok (id, m')) :
    id = BitVec.ofNat 32 m.slots.length ∧ m'.freeq = [] ∧ m'.slots.length = m.slots.length + 1 := by
  obtain ⟨rest, hq', -⟩ | ⟨-, -, hid, rfl⟩ := alloc_eq_ok.mp ha
  · simp [hq] at hq'
  · exact ⟨hid, hq, by simp⟩

theorem free_freeq (hf : m.free s = .ok m') : m'.freeq = m.freeq ++ [s] := by
  obtain ⟨-, g, -, rfl⟩ := free_eq_ok.mp hf
  rfl

theorem exists_free_eq_ok {g : Segment} (hs : s ≠ 0#32) (hg : m.live? s = some g) : ∃ m', m.free s = .ok m' :=
  ⟨_, free_eq_ok.mpr ⟨hs, g, hg, rfl⟩⟩

/-- With none waiting for reuse, successive allocations count up from the number of slots. -/
theorem allocAll_eq_range' (ns : List Word) (hq : m.freeq = []) (hb : m.slots.length + ns.length ≤ 2 ^ 32) :
    ∃ m', m.allocAll ns = .ok ((List.range' m.slots.length ns.length).map (BitVec.ofNat 32), m') := by
  induction ns generalizing m with
  | nil => exact ⟨m, rfl⟩
  | cons n ns ih =>
    rw [List.length_cons] at hb
    obtain ⟨id, m1, ha⟩ := exists_alloc_eq_ok (m := m) (.inr (by omega)) n
    obtain ⟨rfl, hq1, hlen⟩ := alloc_adds_slot hq ha
    obtain ⟨m2, ha2⟩ := ih hq1 (by omega)
    rw [hlen] at ha2
    exact ⟨m2, by simp [allocAll, ha, ha2, List.range'_succ]⟩

/-! ### Slots and lengths under each request (20_memory.md R41) -/

/-- The live segment in a slot, where there is one, stays live and keeps its length. -/
def KeepsLength (m m' : Memory) (k : Nat) : Prop :=
  ∀ g, m.slots[k]? = some (.live g) → ∃ g', m'.slots[k]? = some (.live g') ∧ g'.len = g.len

theorem KeepsLength.of_slot_eq {k : Nat} (h : m'.slots[k]? = m.slots[k]?) : m.KeepsLength m' k :=
  fun g hg => ⟨g, h.trans hg, rfl⟩

theorem write_slots_length (hw : m.write s i v = .ok m') : m'.slots.length = m.slots.length := by
  obtain ⟨g, -, -, rfl⟩ := write_eq_ok.mp hw
  exact List.length_set

theorem free_slots_length (hf : m.free s = .ok m') : m'.slots.length = m.slots.length := by
  obtain ⟨-, g, -, rfl⟩ := free_eq_ok.mp hf
  exact List.length_set

theorem load0_slots_length (hl : m.load0 s = .ok m') : m'.slots.length = m.slots.length := by
  obtain ⟨-, rfl⟩ | ⟨-, g, -, rfl⟩ := load0_eq_ok.mp hl
  · rfl
  · exact List.length_set

theorem alloc_slots_length (ha : m.alloc n = .ok (id, m')) :
    m'.slots.length = m.slots.length ∨ m'.slots.length = m.slots.length + 1 := by
  obtain ⟨rest, -, rfl⟩ | ⟨-, -, -, rfl⟩ := alloc_eq_ok.mp ha
  · exact .inl List.length_set
  · exact .inr (by simp)

theorem write_keepsLength (hw : m.write s i v = .ok m') (k : Nat) : m.KeepsLength m' k := by
  obtain ⟨g, hg, -, rfl⟩ := write_eq_ok.mp hw
  by_cases hk : s.toNat = k
  · subst hk
    intro g' hg'
    obtain rfl : g' = g := Option.some.inj ((live?_eq_some.mpr hg').symm.trans hg)
    exact ⟨g'.put i.toNat v, by simp [lt_of_live hg], rfl⟩
  · exact .of_slot_eq (List.getElem?_set_ne hk)

theorem alloc_keepsLength (h : m.Inv) (ha : m.alloc n = .ok (id, m')) (k : Nat) : m.KeepsLength m' k := by
  intro g hg
  obtain ⟨rest, hq, rfl⟩ | ⟨-, -, -, rfl⟩ := alloc_eq_ok.mp ha
  · have hid : m.slots[id.toNat]? = some .empty := (h.freeEmpty id).mp (by simp [hq])
    have hk : id.toNat ≠ k := by
      rintro rfl
      simp [hid] at hg
    exact KeepsLength.of_slot_eq (List.getElem?_set_ne hk) g hg
  · have hlt : k < m.slots.length := (List.getElem?_eq_some_iff.mp hg).1
    exact KeepsLength.of_slot_eq (List.getElem?_append_left hlt) g hg

theorem free_keepsLength_or_empty (hf : m.free s = .ok m') (k : Nat) :
    m.KeepsLength m' k ∨ (m'.slots[k]? = some .empty ∧ s.toNat = k) := by
  obtain ⟨-, g, hg, rfl⟩ := free_eq_ok.mp hf
  by_cases hk : s.toNat = k
  · exact .inr ⟨by simp [← hk, lt_of_live hg], hk⟩
  · exact .inl (.of_slot_eq (List.getElem?_set_ne hk))

theorem load0_keepsLength (hl : m.load0 s = .ok m') {k : Nat} (hk : k ≠ 0) : m.KeepsLength m' k := by
  obtain ⟨-, rfl⟩ | ⟨-, g, -, rfl⟩ := load0_eq_ok.mp hl
  · exact .of_slot_eq rfl
  · exact .of_slot_eq (List.getElem?_set_ne hk.symm)

end Memory

/-! ### How an instruction changes the segment memory -/

variable {s t : State} {reject : Bool}

/-- An instruction leaves the segment memory alone, or changes it by the one request its row names (20_memory.md
R62): WRITE for SSTORE, ALLOC for MAP, FREE for UNMAP, LOAD0 for LOADP. -/
theorem exec_mem {i : Instr} (h : exec i s = .next t) :
    t.mem = s.mem ∨
    (∃ a b c, i = .sstore a b c ∧ s.mem.write (s.readReg a) (s.readReg b) (s.readReg c) = .ok t.mem) ∨
    (∃ b c id, i = .map b c ∧ s.mem.alloc (s.readReg c) = .ok (id, t.mem)) ∨
    (∃ c, i = .unmap c ∧ s.mem.free (s.readReg c) = .ok t.mem) ∨
    (∃ b c, i = .loadp b c ∧ s.mem.load0 (s.readReg b) = .ok t.mem) := by
  cases i with
  | cmov a b c =>
    obtain ⟨-, rfl⟩ | ⟨-, rfl⟩ := execCmov_inv h
    · exact .inl rfl
    · exact .inl rfl
  | sload a b c =>
    obtain ⟨w, -, rfl⟩ | ⟨cause, -, rfl⟩ := execSload_inv h
    · exact .inl rfl
    · exact .inl rfl
  | sstore a b c =>
    obtain ⟨m, hw, rfl⟩ | ⟨cause, -, rfl⟩ := execSstore_inv h
    · exact .inr (.inl ⟨a, b, c, rfl, hw⟩)
    · exact .inl rfl
  | add a b c =>
    obtain rfl := aluWrite_inv (f := aluAdd) h
    exact .inl rfl
  | mul a b c =>
    obtain rfl := aluWrite_inv (f := aluMul) h
    exact .inl rfl
  | div a b c =>
    obtain ⟨-, rfl⟩ | ⟨-, rfl⟩ := execDiv_inv h
    · exact .inl rfl
    · exact .inl rfl
  | nand a b c =>
    obtain rfl := aluWrite_inv (f := aluNand) h
    exact .inl rfl
  | halt =>
    obtain rfl := execHalt_inv h
    exact .inl rfl
  | map b c =>
    obtain ⟨id, m, -, ha, rfl⟩ | ⟨-, rfl⟩ | ⟨-, cause, -, rfl⟩ := execMap_inv h
    · exact .inr (.inr (.inl ⟨b, c, id, rfl, ha⟩))
    · exact .inl rfl
    · exact .inl rfl
  | unmap c =>
    obtain ⟨m, hf, rfl⟩ | ⟨cause, -, rfl⟩ := execUnmap_inv h
    · exact .inr (.inr (.inr (.inl ⟨c, rfl, hf⟩)))
    · exact .inl rfl
  | out c =>
    obtain ⟨-, rfl⟩ | ⟨-, rfl⟩ := execOut_inv h
    · exact .inl rfl
    · exact .inl rfl
  | inp c =>
    obtain ⟨-, rfl⟩ | ⟨v, -, rfl⟩ | ⟨-, rfl⟩ := execInp_inv h
    · exact .inl rfl
    · exact .inl rfl
    · exact .inl rfl
  | loadp b c =>
    obtain ⟨-, rfl⟩ | ⟨-, m, hl, rfl⟩ | ⟨-, cause, -, rfl⟩ := execLoadp_inv h
    · exact .inl rfl
    · exact .inr (.inr (.inr (.inr ⟨b, c, rfl, hl⟩)))
    · exact .inl rfl
  | loadv a imm =>
    obtain rfl := execLoadv_inv h
    exact .inl rfl

/-! ### The invariant along a run -/

theorem exec_keeps_inv {i : Instr} (hs : s.Inv) (h : exec i s = .next t) : t.Inv := by
  obtain hm | ⟨a, b, c, -, hw⟩ | ⟨b, c, id, -, ha⟩ | ⟨c, -, hf⟩ | ⟨b, c, -, hl⟩ := exec_mem h
  · exact hs.of_mem hm
  · exact ⟨Memory.write_inv hs.mem hw⟩
  · exact ⟨Memory.alloc_inv hs.mem ha⟩
  · exact ⟨Memory.free_inv hs.mem hf⟩
  · exact ⟨Memory.load0_inv hs.mem hl⟩

theorem stepWith_keeps_inv (hs : s.Inv) (h : stepWith reject s = .next t) : t.Inv := by
  obtain ⟨-, ⟨cause, -, rfl⟩ | ⟨w, -, -, rfl⟩ | ⟨w, i, -, -, he⟩⟩ := stepWith_inv h
  · exact hs.of_mem rfl
  · exact hs.of_mem rfl
  · exact exec_keeps_inv hs he

/-- Settles O55: a fault in the fetch or the decoder leaves the memory alone, and an instruction makes at most one
request (`exec_mem`), each of which keeps the memory's invariant. -/
theorem stepKeepsInvariant : Obligations.StepKeepsInvariant :=
  ⟨fun _ _ _ => stepWith_keeps_inv, fun _ _ => stepWith_keeps_inv⟩

/-- The invariant holds of all that can come of a state that meets it, since the host leaves the memory alone. -/
theorem Reaches.keeps_inv (hr : Reaches reject s t) (hs : s.Inv) : t.Inv :=
  hr.keeps hs (fun _ _ => stepWith_keeps_inv) fun _ e hu => hu.of_mem (host_mem e)

/-- Settles O56: the invariant, which says that slot 0 is live, holds at boot and along every run
(`Reaches.keeps_inv`). -/
theorem slotZeroAlwaysLive : Obligations.SlotZeroAlwaysLive := by
  intro reject image input closed limits t himage hr
  have hboot : (State.boot image input closed limits).Inv := ⟨Memory.boot_inv image himage⟩
  exact (hr.keeps_inv hboot).mem.zeroLive

/-! ### Independence of the segments (20_memory.md R48, R50) -/

/-- Settles O32: after LOAD0 slot 0 reads as segment s did (`Memory.read_load0_zero`) and nothing else has changed
(`Memory.read_load0_of_ne`); a write to one segment is not seen in another (`Memory.read_write_of_ne`). -/
theorem loadZeroCopies : Obligations.LoadZeroCopies := by
  refine ⟨fun m => Memory.load0_eq_ok.mpr (.inl ⟨rfl, rfl⟩), ?_, ?_⟩
  · intro m s hs hdead
    exact Memory.load0_eq_error.mpr ⟨hs, Memory.live?_eq_none_of hdead, rfl⟩
  · intro m s g hs hg
    have hl : m.load0 s = .ok { m with slots := m.slots.set 0 (.live g) } :=
      Memory.load0_eq_ok.mpr (.inr ⟨hs, g, Memory.live?_eq_some.mpr hg, rfl⟩)
    refine ⟨_, hl, rfl, Memory.load0_slots_length hl, Memory.read_load0_zero hs hl,
      fun k i hk => Memory.read_load0_of_ne hl hk i, ?_, ?_⟩
    · intro i v m2 hw j
      rw [Memory.read_write_of_ne hw hs.symm, Memory.read_load0_zero hs hl]
    · intro i v m2 hw j
      rw [Memory.read_write_of_ne hw hs, Memory.read_load0_of_ne hl hs]

/-- Settles O33: the read-after-write laws, in the segment written and in every other, and what an allocation leaves to
be read. -/
theorem segmentsNeverAlias : Obligations.SegmentsNeverAlias := by
  refine ⟨?_, fun m m' n id h ha =>
    ⟨fun _ => Memory.read_alloc_same h ha, fun k i hk => Memory.read_alloc_of_ne h ha hk i⟩⟩
  intro m m' s i v hwf hw
  refine ⟨Memory.read_write_same hwf hw, fun k j hkj => ?_⟩
  by_cases hk : k = s
  · subst hk
    have hj : j ≠ i := fun e => hkj (by rw [e])
    exact Memory.read_write_of_ne_index hwf hw hj
  · exact Memory.read_write_of_ne hw hk j

/-! ### Identifiers and the free-id queue (20_memory.md R42, R44, R49) -/

/-- Settles O34: a booted memory has the one slot 0 and nothing waiting, so the identifiers count up from 1
(`Memory.allocAll_eq_range'`). -/
theorem freshIdentifiers : Obligations.FreshIdentifiers := by
  refine ⟨fun m m' n id => Memory.alloc_ne_zero, fun image input closed limits ns hns => ?_⟩
  have hone : (State.boot image input closed limits).mem.slots.length = 1 := rfl
  obtain ⟨m', ha⟩ := Memory.allocAll_eq_range' (m := (State.boot image input closed limits).mem) ns rfl (by omega)
  refine ⟨m', ha.trans ?_⟩
  rw [hone, List.range'_eq_map_range, List.map_map]
  simp [Nat.add_comm, Function.comp_def]

/-- Settles O35: x and y are fresh and so live, other than 0 and distinct; freeing them makes the queue [x, y], and an
allocation takes the front. -/
theorem identifierReuseIsFifo : Obligations.IdentifierReuseIsFifo := by
  intro m n1 n2 n3 n4 h hq hroom
  obtain ⟨x, m1, hx⟩ := Memory.exists_alloc_eq_ok (m := m) (.inr (by omega)) n1
  obtain ⟨-, hq1, hlen1⟩ := Memory.alloc_adds_slot hq hx
  have h1 : m1.Inv := Memory.alloc_inv h hx
  obtain ⟨y, m2, hy⟩ := Memory.exists_alloc_eq_ok (m := m1) (.inr (by omega)) n2
  obtain ⟨-, hq2, -⟩ := Memory.alloc_adds_slot hq1 hy
  have hlive1 : m1.live? x = some (.zeros n1.toNat) := by simp [Memory.live?_alloc h hx]
  have hxy : x ≠ y := by
    rintro rfl
    simp [Memory.live?_of_alloc h1 hy] at hlive1
  have hlive2 : m2.live? x = some (.zeros n1.toNat) := by rw [Memory.live?_alloc h1 hy, if_neg hxy, hlive1]
  obtain ⟨m3, hfx⟩ := Memory.exists_free_eq_ok (Memory.alloc_ne_zero h hx) hlive2
  have hlive3 : m3.live? y = some (.zeros n2.toNat) := by
    simp [Memory.live?_free hfx, hxy.symm, Memory.live?_alloc h1 hy]
  obtain ⟨m4, hfy⟩ := Memory.exists_free_eq_ok (Memory.alloc_ne_zero h1 hy) hlive3
  have hq4 : m4.freeq = [x, y] := by rw [Memory.free_freeq hfy, Memory.free_freeq hfx, hq2]; rfl
  obtain ⟨x', m5, hx'⟩ := Memory.exists_alloc_eq_ok (m := m4) (.inl (by simp [hq4])) n3
  obtain ⟨rfl, hq5⟩ := Memory.alloc_takes_front hq4 hx'
  obtain ⟨y', m6, hy'⟩ := Memory.exists_alloc_eq_ok (m := m5) (.inl (by simp [hq5])) n4
  obtain ⟨rfl, -⟩ := Memory.alloc_takes_front hq5 hy'
  exact ⟨x', y', m1, m2, m3, m4, m5, m6, hx, hy, hfx, hfy, hx', hy', hxy⟩

/-- Settles O57: the invariant keeps every queued identifier's slot Empty, so 0 is not one; FREE and ALLOC take the
queue's two ends (`Memory.free_freeq`, `Memory.alloc_takes_front`). -/
theorem freeQueueHoldsEmptySlots : Obligations.FreeQueueHoldsEmptySlots := by
  refine ⟨fun m h id hid => ⟨(h.freeEmpty id).mp hid, ?_⟩, fun m m' s => Memory.free_freeq,
    fun m m' n id x rest => Memory.alloc_takes_front⟩
  rintro rfl
  exact h.zero_not_free hid

/-! ### Slots and lengths (20_memory.md R41) -/

theorem exec_slots_length {i : Instr} (h : exec i s = .next t) :
    t.mem.slots.length = s.mem.slots.length ∨ t.mem.slots.length = s.mem.slots.length + 1 := by
  obtain hm | ⟨a, b, c, -, hw⟩ | ⟨b, c, id, -, ha⟩ | ⟨c, -, hf⟩ | ⟨b, c, -, hl⟩ := exec_mem h
  · exact .inl (by rw [hm])
  · exact .inl (Memory.write_slots_length hw)
  · exact Memory.alloc_slots_length ha
  · exact .inl (Memory.free_slots_length hf)
  · exact .inl (Memory.load0_slots_length hl)

/-- An instruction keeps every live segment but segment 0 at its length, or is the UNMAP that empties its slot. -/
theorem exec_keepsLength_or_unmap {i : Instr} (hs : s.Inv) (h : exec i s = .next t) {k : Nat} (hk : k ≠ 0) :
    s.mem.KeepsLength t.mem k ∨
      (t.mem.slots[k]? = some .empty ∧ ∃ c, i = .unmap c ∧ (s.readReg c).toNat = k) := by
  obtain hm | ⟨a, b, c, -, hw⟩ | ⟨b, c, id, -, ha⟩ | ⟨c, hi, hf⟩ | ⟨b, c, -, hl⟩ := exec_mem h
  · exact .inl (.of_slot_eq (by rw [hm]))
  · exact .inl (Memory.write_keepsLength hw k)
  · exact .inl (Memory.alloc_keepsLength hs.mem ha k)
  · obtain hkeep | ⟨hempty, hc⟩ := Memory.free_keepsLength_or_empty hf k
    · exact .inl hkeep
    · exact .inr ⟨hempty, c, hi, hc⟩
  · exact .inl (Memory.load0_keepsLength hl hk)

/-- Settles O36: no request removes a slot and ALLOC alone adds one (`exec_slots_length`); only UNMAP ends a live
segment, its own (`exec_keepsLength_or_unmap`). -/
theorem slotsKeepTheirLengths : Obligations.SlotsKeepTheirLengths := by
  intro i s t hs h
  have hlen := exec_slots_length h
  refine ⟨by omega, by omega, fun k g hk hg => ?_⟩
  obtain hkeep | hunmap := exec_keepsLength_or_unmap hs h hk
  · exact .inl (hkeep g hg)
  · exact .inr hunmap

end Sys2Proof.Machine
end

section
/-! PROOFS. The encoding (30_encoding.md): one equation per verdict of the decoder (R75), what an opcode's instruction
keeps of the fields (R78, R79), both encoders against the decoder (R83-R85), and the words that fault (R80, R81). -/

namespace Sys2Proof

variable {reject : Bool} {w v : Word} {op : BitVec 4} {a b c a' b' c' : RegIdx} {i : Instr}

/-! ### The decoder's verdict, one equation per branch (R75) -/

theorem opField_ne_of_toNat_ne (h : (opField w).toNat ≠ op.toNat) : opField w ≠ op := fun e => h (by rw [e])

theorem decodeFields_of_opField_eq (h : opField w = 13#4) :
    decodeFields reject w = .loadImm (immRegField w) (immField w) := if_pos h

theorem decodeFields_of_le_opField (h : 14 ≤ (opField w).toNat) : decodeFields reject w = .invalid (opField w) := by
  obtain ⟨h13, -⟩ | ⟨-, hd⟩ | ⟨h12, -⟩ | ⟨h12, -⟩ := decodeFields_cases reject w
  · simp [h13] at h
  · exact hd
  · omega
  · omega

/-- While reserved bits are rejected, every word but one of format I is Invalid if it has one (R81). -/
theorem decodeFields_of_reservedField_ne (h : opField w ≠ 13#4) (hres : reservedField w ≠ 0#19) :
    decodeFields true w = .invalid (opField w) := by
  obtain ⟨h13, -⟩ | ⟨-, hd⟩ | ⟨-, -, -, hd⟩ | ⟨-, hzero, -⟩ := decodeFields_cases true w
  · exact absurd h13 h
  · exact hd
  · exact hd
  · exact absurd (hzero rfl) hres

theorem decodeFields_of_opField_le (h : (opField w).toNat ≤ 12) (hres : reject = true → reservedField w = 0#19) :
    decodeFields reject w = .threeReg (opField w) (aField w) (bField w) (cField w) := by
  obtain ⟨h13, -⟩ | ⟨h14 | h15, -⟩ | ⟨-, hr, hne, -⟩ | ⟨-, -, hd⟩ := decodeFields_cases reject w
  · simp [h13] at h
  · simp [h14] at h
  · simp [h15] at h
  · exact absurd (hres hr) hne
  · exact hd

/-- Settles O1: the four verdicts, with each field read as a number. -/
theorem decoderVerdictOnEveryWord : Obligations.DecoderVerdictOnEveryWord := by
  intro reject w
  rw [← opField_toNat, ← reservedField_toNat]
  refine ⟨fun h => ?_, fun h => ?_, fun h hr hres => ?_, fun h hr => ?_⟩
  · have h13 : opField w = 13#4 := BitVec.eq_of_toNat_eq h
    exact ⟨_, _, decodeFields_of_opField_eq h13, immRegField_val w, immField_toNat w⟩
  · exact ⟨_, decodeFields_of_le_opField h, rfl⟩
  · subst hr
    have h13 : opField w ≠ 13#4 := opField_ne_of_toNat_ne (h.trans_lt (by decide)).ne
    have hne : reservedField w ≠ 0#19 := fun e => hres (by rw [e]; rfl)
    exact ⟨_, decodeFields_of_reservedField_ne h13 hne, rfl⟩
  · have hzero : reject = true → reservedField w = 0#19 := fun ht =>
      BitVec.eq_of_toNat_eq (hr.resolve_left (by simp [ht]))
    exact ⟨_, _, _, _, decodeFields_of_opField_le h hzero, rfl, aField_val w, bField_val w, cField_val w⟩

/-! ### The codec's round trips (R83-R85) -/

theorem decodeFields_encodeThreeRegister (h : op.toNat ≤ 12) :
    decodeFields reject (encodeThreeRegister op a b c) = .threeReg op a b c := by
  have hd := decodeFields_of_opField_le (reject := reject) (w := encodeThreeRegister op a b c)
    (by rwa [opField_encodeThreeRegister]) (fun _ => reservedField_encodeThreeRegister op a b c)
  rwa [opField_encodeThreeRegister, aField_encodeThreeRegister, bField_encodeThreeRegister,
    cField_encodeThreeRegister] at hd

theorem encodeThreeRegister_fields (h : reservedField w = 0#19) :
    encodeThreeRegister (opField w) (aField w) (bField w) (cField w) = w := by
  have hzero : w.toNat / 2 ^ 9 % 2 ^ 19 = 0 := by rw [← reservedField_toNat, h]; rfl
  apply BitVec.eq_of_toNat_eq
  rw [encodeThreeRegister_toNat, opField_toNat, aField_val, bField_val, cField_val]
  omega

theorem exists_encodeImmediate {value : Nat} (h : value < 2 ^ 25) : ∃ w, encodeImmediate a value = some w :=
  ⟨_, if_pos (decide_eq_true h)⟩

theorem decodeFields_of_encodeImmediate {value : Nat} (h : encodeImmediate a value = some w) :
    ∃ imm, decodeFields reject w = .loadImm a imm ∧ imm.toNat = value := by
  obtain ⟨hfit, hw⟩ := encodeImmediate_eq_some.mp h
  have hop : opField w = 13#4 := by
    apply BitVec.eq_of_toNat_eq
    rw [opField_toNat, BitVec.toNat_ofNat]
    omega
  have hreg : immRegField w = a := by
    apply Fin.ext
    rw [immRegField_val]
    omega
  refine ⟨immField w, by rw [decodeFields_of_opField_eq hop, hreg], ?_⟩
  rw [immField_toNat]
  omega

theorem encodeImmediate_fields (h : opField w = 13#4) :
    encodeImmediate (immRegField w) (immField w).toNat = some w := by
  have hop : w.toNat / 2 ^ 28 = 13 := by rw [← opField_toNat, h]; rfl
  rw [encodeImmediate_eq_some, immField_toNat, immRegField_val]
  omega

/-- Settles O7: decoding either encoder's word gives its fields back, and encoding the fields of a word with no bit
outside them gives the word back (`encodeThreeRegister_fields`, `encodeImmediate_fields`). -/
theorem codecRoundTrip : Obligations.CodecRoundTrip := by
  refine ⟨fun reject op a b c => decodeFields_encodeThreeRegister, fun reject a value h => ?_,
    fun reject w hres h => ?_, fun reject w h => ?_⟩
  · obtain ⟨w, hw⟩ := exists_encodeImmediate (a := a) h
    obtain ⟨imm, hd, himm⟩ := decodeFields_of_encodeImmediate (reject := reject) hw
    exact ⟨w, imm, hw, hd, himm⟩
  · exact ⟨_, _, _, _, decodeFields_of_opField_le h (fun _ => hres), encodeThreeRegister_fields hres⟩
  · exact ⟨_, _, decodeFields_of_opField_eq h, encodeImmediate_fields h⟩

/-- Settles O6: the encoder succeeds exactly on the values that fit (`encodeImmediate_eq_some`). -/
theorem encodeImmediateRejects : Obligations.EncodeImmediateRejects := by
  intro a value
  refine ⟨fun h => ?_, fun h => ?_⟩
  · obtain ⟨w, hw⟩ := exists_encodeImmediate (a := a) h
    obtain ⟨-, hval⟩ := encodeImmediate_eq_some.mp hw
    exact ⟨w, hw, by rw [hval, Nat.shiftLeft_eq, Nat.shiftLeft_eq]⟩
  · rw [Option.eq_none_iff_forall_ne_some]
    intro w hw
    obtain ⟨hfit, -⟩ := encodeImmediate_eq_some.mp hw
    omega

theorem decode_encodeThreeRegister (h : op.toNat ≤ 12) :
    decode reject (encodeThreeRegister op a b c) = (Decoded.threeReg op a b c).instr := by
  rw [decode, decodeFields_encodeThreeRegister h]

/-- Settles O8: of each format-R opcode the round trip returns the fields that its instruction uses; an immediate that
fits is its own 25-bit field. -/
theorem decodeOfEncode : Obligations.DecodeOfEncode := by
  intro reject i hi
  cases i with
  | cmov a b c => exact ⟨_, rfl, decode_encodeThreeRegister (by decide)⟩
  | sload a b c => exact ⟨_, rfl, decode_encodeThreeRegister (by decide)⟩
  | sstore a b c => exact ⟨_, rfl, decode_encodeThreeRegister (by decide)⟩
  | add a b c => exact ⟨_, rfl, decode_encodeThreeRegister (by decide)⟩
  | mul a b c => exact ⟨_, rfl, decode_encodeThreeRegister (by decide)⟩
  | div a b c => exact ⟨_, rfl, decode_encodeThreeRegister (by decide)⟩
  | nand a b c => exact ⟨_, rfl, decode_encodeThreeRegister (by decide)⟩
  | halt => exact ⟨_, rfl, decode_encodeThreeRegister (by decide)⟩
  | map b c => exact ⟨_, rfl, decode_encodeThreeRegister (by decide)⟩
  | unmap c => exact ⟨_, rfl, decode_encodeThreeRegister (by decide)⟩
  | out c => exact ⟨_, rfl, decode_encodeThreeRegister (by decide)⟩
  | inp c => exact ⟨_, rfl, decode_encodeThreeRegister (by decide)⟩
  | loadp b c => exact ⟨_, rfl, decode_encodeThreeRegister (by decide)⟩
  | loadv a imm =>
    have hfit : imm < 2 ^ 25 := of_decide_eq_true hi
    obtain ⟨w, hw⟩ := exists_encodeImmediate (a := a) hfit
    obtain ⟨value, hd, rfl⟩ := decodeFields_of_encodeImmediate (reject := reject) hw
    exact ⟨w, hw, by rw [decode, hd, Decoded.instr]⟩

/-! ### The opcode map (R78) -/

theorem opcode_cases (h : op.toNat ≤ 12) :
    op = 0#4 ∨ op = 1#4 ∨ op = 2#4 ∨ op = 3#4 ∨ op = 4#4 ∨ op = 5#4 ∨ op = 6#4 ∨ op = 7#4 ∨ op = 8#4 ∨ op = 9#4 ∨
      op = 10#4 ∨ op = 11#4 ∨ op = 12#4 := by
  revert op
  decide

/-- Each format-R opcode has an instruction, whose opcode it is. -/
theorem exists_instr_threeReg (h : op.toNat ≤ 12) :
    ∃ i, (Decoded.threeReg op a b c).instr = some i ∧ i.opcode = op ∧ i.wellFormed = true := by
  rcases opcode_cases h with rfl | rfl | rfl | rfl | rfl | rfl | rfl | rfl | rfl | rfl | rfl | rfl | rfl <;>
    exact ⟨_, rfl, rfl, rfl⟩

theorem decode_of_opField_eq (h : opField w = 13#4) :
    decode reject w = some (.loadv (immRegField w) (immField w).toNat) := by
  rw [decode, decodeFields_of_opField_eq h, Decoded.instr]

theorem decode_of_opField_le (h : (opField w).toNat ≤ 12) (hres : reject = true → reservedField w = 0#19) :
    decode reject w = (Decoded.threeReg (opField w) (aField w) (bField w) (cField w)).instr := by
  rw [decode, decodeFields_of_opField_le h hres]

theorem decode_of_le_opField (h : 14 ≤ (opField w).toNat) : decode reject w = none := by
  rw [decode, decodeFields_of_le_opField h, Decoded.instr]

theorem decode_of_reservedField_ne (h : opField w ≠ 13#4) (hres : reservedField w ≠ 0#19) : decode true w = none := by
  rw [decode, decodeFields_of_reservedField_ne h hres, Decoded.instr]

/-- With bits 27-9 ignored, every word of opcodes 0-13 gives an instruction. -/
theorem exists_decode_eq_some (h : (opField w).toNat ≤ 13) : ∃ i, decode false w = some i := by
  obtain h12 | h13 := Nat.le_succ_iff.mp h
  · obtain ⟨i, hi, -⟩ := exists_instr_threeReg (a := aField w) (b := bField w) (c := cField w) h12
    exact ⟨i, (decode_of_opField_le h12 (by simp)).trans hi⟩
  · exact ⟨_, decode_of_opField_eq (BitVec.eq_of_toNat_eq h13)⟩

/-- What the decoder reads is a well-formed instruction of the word's own opcode. -/
theorem opcode_of_decode (h : decode reject w = some i) : i.opcode = opField w ∧ i.wellFormed = true := by
  obtain ⟨h13, -⟩ | ⟨-, hd⟩ | ⟨-, -, -, hd⟩ | ⟨h12, hres, -⟩ := decodeFields_cases reject w
  · rw [decode_of_opField_eq h13] at h
    obtain rfl := Option.some.inj h
    exact ⟨h13.symm, decide_eq_true (immField w).isLt⟩
  · simp [decode, hd, Decoded.instr] at h
  · simp [decode, hd, Decoded.instr] at h
  · rw [decode_of_opField_le h12 hres] at h
    obtain ⟨j, hj, hop, hwf⟩ := exists_instr_threeReg (a := aField w) (b := bField w) (c := cField w) h12
    obtain rfl : j = i := Option.some.inj (hj.symm.trans h)
    exact ⟨hop, hwf⟩

/-- The mask `0xF0000000` keeps the opcode field in its place. -/
theorem and_opcodeMask (w : Word) : w &&& 0xF0000000#32 = BitVec.ofNat 32 ((opField w).toNat * 2 ^ 28) := by
  have hmask : ∀ k < 32, (0xF0000000#32).getLsbD k = decide (28 ≤ k) := by decide
  apply BitVec.eq_of_getLsbD_eq
  intro k hk
  rw [BitVec.getLsbD_and, hmask k hk, BitVec.getLsbD_ofNat, Nat.testBit_mul_two_pow]
  by_cases h28 : 28 ≤ k
  · have hbit : (opField w).toNat.testBit (k - 28) = w.getLsbD k := by
      rw [opField_toNat, Nat.testBit_div_two_pow, Nat.sub_add_cancel h28]
      rfl
    simp [hk, h28, hbit]
  · simp [h28]

/-- Settles O2: the map by its rows; a decoded instruction has its word's opcode (`opcode_of_decode`), which is 13 at
most, and every opcode up to 13 has one (`exists_decode_eq_some`). -/
theorem opcodeMap : Obligations.OpcodeMap := by
  refine ⟨fun i => ?_, fun reject w i h => ?_, fun w => ?_, fun reject w h => ?_⟩
  · cases i <;> simp [Instr.mnemonic, Instr.opcode]
  · obtain ⟨hop, hwf⟩ := opcode_of_decode h
    exact ⟨by rw [and_opcodeMask, hop], hwf⟩
  · rw [← opField_toNat]
    refine ⟨exists_decode_eq_some, fun ⟨i, hi⟩ => ?_⟩
    by_contra hlt
    simp [decode_of_le_opField (w := w) (by omega)] at hi
  · exact decode_of_le_opField (by rwa [opField_toNat])

/-- Settles O9: closed words, on which the decoder computes. -/
theorem sampleWordsDecode : Obligations.SampleWordsDecode := by
  unfold Obligations.SampleWordsDecode
  decide

/-! ### The fields that each opcode uses (R79) -/

/-- Two verdicts of one format-R opcode give the same instruction exactly when they agree in the fields that the opcode
uses: the rows of R79's table. -/
theorem instr_threeReg_eq_iff (h : op.toNat ≤ 12) :
    (Decoded.threeReg op a b c).instr = (Decoded.threeReg op a' b' c').instr ↔
      (op.toNat ≤ 6 → a = a') ∧ (op.toNat ≤ 6 ∨ op.toNat = 8 ∨ op.toNat = 12 → b = b') ∧ (op.toNat ≠ 7 → c = c') := by
  rcases opcode_cases h with rfl | rfl | rfl | rfl | rfl | rfl | rfl | rfl | rfl | rfl | rfl | rfl | rfl <;>
    simp [Decoded.instr]

/-- Words of one opcode of format R that agree in the fields the opcode uses decode alike. -/
theorem decode_congr (hop : opField w = opField v) (h13 : (opField w).toNat ≠ 13)
    (hres : reject = true → reservedField w = reservedField v) (ha : (opField w).toNat ≤ 6 → aField w = aField v)
    (hb : (opField w).toNat ≤ 6 ∨ (opField w).toNat = 8 ∨ (opField w).toNat = 12 → bField w = bField v)
    (hc : (opField w).toNat ≠ 7 → cField w = cField v) : decode reject w = decode reject v := by
  by_cases h12 : (opField w).toNat ≤ 12
  · by_cases hrej : reject = true ∧ reservedField w ≠ 0#19
    · obtain ⟨rfl, hne⟩ := hrej
      have hop13 : opField w ≠ 13#4 := opField_ne_of_toNat_ne h13
      rw [decode_of_reservedField_ne hop13 hne, decode_of_reservedField_ne (hop ▸ hop13) (hres rfl ▸ hne)]
    · have hzero : reject = true → reservedField w = 0#19 := by simpa using hrej
      rw [decode_of_opField_le h12 hzero, decode_of_opField_le (hop ▸ h12) (fun hr => (hres hr) ▸ hzero hr), ← hop,
        instr_threeReg_eq_iff h12]
      exact ⟨ha, hb, hc⟩
  · have h14 : 14 ≤ (opField w).toNat := by omega
    rw [decode_of_le_opField h14, decode_of_le_opField (hop ▸ h14)]

/-- With bits 27-9 ignored, words of one opcode of format R that decode alike agree in the fields the opcode uses. -/
theorem fields_eq_of_decode_eq (hop : opField w = opField v) (h12 : (opField w).toNat ≤ 12)
    (h : decode false w = decode false v) :
    ((opField w).toNat ≤ 6 → aField w = aField v) ∧
      ((opField w).toNat ≤ 6 ∨ (opField w).toNat = 8 ∨ (opField w).toNat = 12 → bField w = bField v) ∧
      ((opField w).toNat ≠ 7 → cField w = cField v) := by
  rwa [decode_of_opField_le h12 (by simp), decode_of_opField_le (hop ▸ h12) (by simp), ← hop,
    instr_threeReg_eq_iff h12] at h

theorem immediate_eq_of_decode_eq (hw : opField w = 13#4) (hv : opField v = 13#4)
    (h : decode false w = decode false v) : immRegField w = immRegField v ∧ immField w = immField v := by
  rw [decode_of_opField_eq hw, decode_of_opField_eq hv] at h
  simpa [BitVec.toNat_inj] using h

/-- Settles O3: agreeing in the used fields and decoding alike are the same thing (`decode_congr`,
`fields_eq_of_decode_eq`, and `immediate_eq_of_decode_eq` for format I). -/
theorem unusedFieldsIgnored : Obligations.UnusedFieldsIgnored := by
  refine ⟨fun reject w v hop hres => ⟨fun h ha hb hc => ?_, fun h => ?_, fun h hb hc => ?_, fun h hc => ?_⟩,
    fun w v hop hd => ⟨fun h => ?_, fun h => ?_, fun h => ?_, fun h => ?_⟩⟩
  · exact decode_congr hop (by omega) hres (fun _ => ha) (fun _ => hb) (fun _ => hc)
  · exact decode_congr hop (by omega) hres (by omega) (by omega) (by omega)
  · exact decode_congr hop (by omega) hres (by omega) (fun _ => hb) (fun _ => hc)
  · exact decode_congr hop (by omega) hres (by omega) (by omega) (fun _ => hc)
  · obtain ⟨ha, hb, hc⟩ := fields_eq_of_decode_eq hop (by omega) hd
    exact ⟨ha h, hb (.inl h), hc (by omega)⟩
  · obtain ⟨-, hb, hc⟩ := fields_eq_of_decode_eq hop (by omega) hd
    exact ⟨hb (.inr h), hc (by omega)⟩
  · obtain ⟨-, -, hc⟩ := fields_eq_of_decode_eq hop (by omega) hd
    exact hc (by omega)
  · have h13 : opField w = 13#4 := BitVec.eq_of_toNat_eq h
    exact immediate_eq_of_decode_eq h13 (hop ▸ h13) hd

/-! ### Words that fault (R80, R81) -/

theorem extractLsb_and_of_eq_allOnes {hi lo : Nat} {mask : Word} (h : mask.extractLsb hi lo = BitVec.allOnes _) :
    (w &&& mask).extractLsb hi lo = w.extractLsb hi lo := by
  rw [BitVec.extractLsb_and, h, BitVec.and_allOnes]

/-- The mask `0xF00001FF` keeps every field of format R. -/
theorem fields_and_formatMask (w : Word) :
    opField (w &&& 0xF00001FF#32) = opField w ∧ aField (w &&& 0xF00001FF#32) = aField w ∧
      bField (w &&& 0xF00001FF#32) = bField w ∧ cField (w &&& 0xF00001FF#32) = cField w := by
  refine ⟨extractLsb_and_of_eq_allOnes ?_, congrArg BitVec.toFin (extractLsb_and_of_eq_allOnes ?_),
    congrArg BitVec.toFin (extractLsb_and_of_eq_allOnes ?_), congrArg BitVec.toFin (extractLsb_and_of_eq_allOnes ?_)⟩
  · decide
  · decide
  · decide
  · decide

theorem decode_true_of_reservedField_eq (h : reservedField w = 0#19) : decode true w = decode false w := by
  simp [decode, decodeFields, h]

namespace Machine

variable {s t : State}

/-- A running step at a word that the decoder finds Invalid raises MalformedProgram (40_execution_cycle.md R104). -/
theorem stepWith_of_decode_eq_none (hr : s.run = .running) (hf : s.mem.read 0#32 s.pc = .ok w)
    (hd : decode reject w = none) : stepWith reject s = .next (s.setRun (.faulted .malformedProgram)) := by
  simp [stepWith, hr, fetch_eq, hf, hd]

section Requests

variable {m : Memory} {k j n : Word} {cause : Cause}

theorem Memory.ne_malformedProgram_of_read (h : m.read k j = .error cause) : cause ≠ .malformedProgram := by
  obtain ⟨-, rfl⟩ | ⟨g, -, -, rfl⟩ := Memory.read_eq_error.mp h <;> decide

theorem Memory.ne_malformedProgram_of_write (h : m.write k j n = .error cause) : cause ≠ .malformedProgram := by
  obtain ⟨-, rfl⟩ | ⟨g, -, -, rfl⟩ := Memory.write_eq_error.mp h <;> decide

theorem Memory.ne_malformedProgram_of_alloc (h : m.alloc n = .error cause) : cause ≠ .malformedProgram := by
  obtain ⟨-, -, rfl⟩ := Memory.alloc_eq_error.mp h
  decide

theorem Memory.ne_malformedProgram_of_free (h : m.free k = .error cause) : cause ≠ .malformedProgram := by
  obtain ⟨-, rfl⟩ := Memory.free_eq_error.mp h
  decide

theorem Memory.ne_malformedProgram_of_load0 (h : m.load0 k = .error cause) : cause ≠ .malformedProgram := by
  obtain ⟨-, -, rfl⟩ := Memory.load0_eq_error.mp h
  decide

end Requests

/-- No instruction's own fault is MalformedProgram. -/
theorem exec_run_ne_malformedProgram (hs : s.run ≠ .faulted .malformedProgram) (h : exec i s = .next t) :
    t.run ≠ .faulted .malformedProgram := by
  cases i with
  | cmov a b c =>
    obtain ⟨-, rfl⟩ | ⟨-, rfl⟩ := execCmov_inv h
    · exact hs
    · exact hs
  | sload a b c =>
    obtain ⟨w, -, rfl⟩ | ⟨cause, hm, rfl⟩ := execSload_inv h
    · exact hs
    · simpa using Memory.ne_malformedProgram_of_read hm
  | sstore a b c =>
    obtain ⟨m, -, rfl⟩ | ⟨cause, hm, rfl⟩ := execSstore_inv h
    · exact hs
    · simpa using Memory.ne_malformedProgram_of_write hm
  | add a b c =>
    obtain rfl := aluWrite_inv (f := aluAdd) h
    exact hs
  | mul a b c =>
    obtain rfl := aluWrite_inv (f := aluMul) h
    exact hs
  | div a b c =>
    obtain ⟨-, rfl⟩ | ⟨-, rfl⟩ := execDiv_inv h
    · exact hs
    · simp
  | nand a b c =>
    obtain rfl := aluWrite_inv (f := aluNand) h
    exact hs
  | halt =>
    obtain rfl := execHalt_inv h
    simp
  | map b c =>
    obtain ⟨id, m, -, -, rfl⟩ | ⟨-, rfl⟩ | ⟨-, cause, hm, rfl⟩ := execMap_inv h
    · exact hs
    · simp
    · simpa using Memory.ne_malformedProgram_of_alloc hm
  | unmap c =>
    obtain ⟨m, -, rfl⟩ | ⟨cause, hm, rfl⟩ := execUnmap_inv h
    · exact hs
    · simpa using Memory.ne_malformedProgram_of_free hm
  | out c =>
    obtain ⟨-, rfl⟩ | ⟨-, rfl⟩ := execOut_inv h
    · exact hs
    · simp
  | inp c =>
    obtain ⟨-, rfl⟩ | ⟨v, -, rfl⟩ | ⟨-, rfl⟩ := execInp_inv h
    · exact hs
    · exact hs
    · exact hs
  | loadp b c =>
    obtain ⟨-, rfl⟩ | ⟨-, m, -, rfl⟩ | ⟨-, cause, hm, rfl⟩ := execLoadp_inv h
    · exact hs
    · exact hs
    · simpa using Memory.ne_malformedProgram_of_load0 hm
  | loadv a imm =>
    obtain rfl := execLoadv_inv h
    exact hs

/-- A step ends in MalformedProgram only at a fetched word that the decoder finds Invalid. -/
theorem exists_fetch_of_malformedProgram (h : stepWith reject s = .next t)
    (ht : t.run = .faulted .malformedProgram) : ∃ w, s.mem.read 0#32 s.pc = .ok w ∧ decode reject w = none := by
  obtain ⟨hr, ⟨cause, hf, rfl⟩ | ⟨w, hf, hd, -⟩ | ⟨w, i, -, -, he⟩⟩ := stepWith_inv h
  · exact absurd (by simpa using ht) (Memory.ne_malformedProgram_of_read hf)
  · exact ⟨w, hf, hd⟩
  · exact absurd ht (exec_run_ne_malformedProgram (by simp [hr]) he)

/-- Settles O4: opcodes 14 and 15 are the decoder's Invalid while bits 27-9 are ignored, and no fetch and no
instruction raises MalformedProgram of its own (`exists_fetch_of_malformedProgram`). -/
theorem unassignedOpcodesFault : Obligations.UnassignedOpcodesFault := by
  refine ⟨fun reject s w hr hf hop => ?_, fun s t h ht => ?_, rfl⟩
  · exact stepWith_of_decode_eq_none hr hf (decode_of_le_opField (by rw [opField_toNat]; omega))
  · obtain ⟨w, hf, hd⟩ := exists_fetch_of_malformedProgram h ht
    refine ⟨w, hf, ?_⟩
    rw [← opField_toNat]
    by_contra hlt
    obtain ⟨i, hi⟩ := exists_decode_eq_some (w := w) (by omega)
    simp [hd] at hi

/-- Settles O5: the mask keeps every field that a format-R opcode uses (`fields_and_formatMask`, `decode_congr`); a word
with reserved bits is Invalid once they are rejected, and the setting plays no other part. -/
theorem reservedBits : Obligations.ReservedBits := by
  refine ⟨fun w v h13 hmask => ?_, fun w => decode_of_reservedField_ne, fun w => decode_true_of_reservedField_eq,
    fun w h13 => ?_, fun s w hr hf h13 hres => ?_⟩
  · obtain ⟨hop, ha, hb, hc⟩ := fields_and_formatMask w
    rw [hmask] at hop ha hb hc
    obtain ⟨hop', ha', hb', hc'⟩ := fields_and_formatMask v
    exact decode_congr (hop.symm.trans hop') (fun e => h13 (BitVec.eq_of_toNat_eq e)) (by simp)
      (fun _ => ha.symm.trans ha') (fun _ => hb.symm.trans hb') (fun _ => hc.symm.trans hc')
  · rw [decode_of_opField_eq h13, decode_of_opField_eq h13]
  · exact stepWith_of_decode_eq_none hr hf (decode_of_reservedField_ne h13 hres)

end Machine

end Sys2Proof
end

section
/-! PROOFS. The execution cycle (40_execution_cycle.md): when there is a step and what it runs (R100, R104, R105, R111),
the fetch (R101), how an instruction can end (R105-R107), and the held IN (R108). -/

namespace Sys2Proof.Machine

variable {s t : State} {a b c : RegIdx} {i : Instr} {reject : Bool}

/-! ### The step, one equation per branch (R111) -/

theorem stepWith_of_halted (hr : s.run = .halted) : stepWith reject s = .fault .halted := by
  simp [stepWith, hr]

theorem stepWith_of_faulted {cause : Cause} (hr : s.run = .faulted cause) :
    stepWith reject s = .fault (.faulted cause) := by
  simp [stepWith, hr]

theorem stepWith_of_fetch_error {cause : Cause} (hr : s.run = .running) (hf : s.fetch = .error cause) :
    stepWith reject s = .next (s.setRun (.faulted cause)) := by
  simp [stepWith, hr, hf]

/-- Settles O10: the fetched word and its decoding are the instruction at pc, whose meaning is the step
(`stepWith_of_instrAt`). -/
theorem stepRunsDecodedInstruction : Obligations.StepRunsDecodedInstruction :=
  ⟨fun _ _ w _ hr hf hd => stepWith_of_instrAt hr (instrAt_eq_some.mpr ⟨w, hf, hd⟩), fun _ => rfl⟩

/-! ### The guarded meanings, one equation per outcome (R105, R107); MAP's stand with MEM_CAPACITY -/

theorem execSload_of_read_ok {w : Word} (h : s.mem.read (s.readReg b) (s.readReg c) = .ok w) :
    execSload a b c s = .next (s.writeReg a w).advance := by
  simp [execSload, State.operands, State.memRead, h]

theorem execSload_of_read_error {cause : Cause} (h : s.mem.read (s.readReg b) (s.readReg c) = .error cause) :
    execSload a b c s = .next (s.setRun (.faulted cause)) := by
  simp [execSload, State.operands, State.memRead, h]

theorem execSstore_of_write_ok {m : Memory}
    (h : s.mem.write (s.readReg a) (s.readReg b) (s.readReg c) = .ok m) :
    execSstore a b c s = .next (s.setMem m).advance := by
  simp [execSstore, State.operands, State.memWrite, h]

theorem execSstore_of_write_error {cause : Cause}
    (h : s.mem.write (s.readReg a) (s.readReg b) (s.readReg c) = .error cause) :
    execSstore a b c s = .next (s.setRun (.faulted cause)) := by
  simp [execSstore, State.operands, State.memWrite, h]

theorem execDiv_of_ne_zero (h : s.readReg c ≠ 0#32) :
    execDiv a b c s = .next (s.writeReg a (aluDiv (s.readReg b) (s.readReg c))).advance := by
  simp [execDiv, aluWrite, State.operands, h]

theorem execDiv_of_eq_zero (h : s.readReg c = 0#32) :
    execDiv a b c s = .next (s.setRun (.faulted .divisionByZero)) := by
  simp [execDiv, h]

theorem execUnmap_of_free_ok {m : Memory} (h : s.mem.free (s.readReg c) = .ok m) :
    execUnmap c s = .next (s.setMem m).advance := by
  simp [execUnmap, State.segFree, h]

theorem execUnmap_of_free_error {cause : Cause} (h : s.mem.free (s.readReg c) = .error cause) :
    execUnmap c s = .next (s.setRun (.faulted cause)) := by
  simp [execUnmap, State.segFree, h]

theorem execOut_of_le (h : (s.readReg c).toNat ≤ 255) :
    execOut c s = .next (s.outByte ((s.readReg c).setWidth 8)).advance := by
  simp [execOut, fitsByte_eq_true.mpr h]

theorem execOut_of_lt (h : 255 < (s.readReg c).toNat) :
    execOut c s = .next (s.setRun (.faulted .outputRangeViolation)) := by
  simp [execOut, fitsByte_eq_false.mpr h]

theorem execInp_of_offer_nothing (h : s.offer = .nothing) : execInp c s = .next s := by
  simp [execInp, h]

theorem execInp_of_offer_byte {v : Byte} (h : s.offer = .byte v) :
    execInp c s = .next (s.takeInput.writeReg c (BitVec.ofNat 32 v.toNat)).advance := by
  simp [execInp, h, inputWord]

theorem execInp_of_offer_eof (h : s.offer = .eof) : execInp c s = .next (s.writeReg c eofSentinel).advance := by
  simp [execInp, h, inputWord]

theorem execLoadp_of_eq_zero (h : s.readReg b = 0#32) : execLoadp b c s = .next (s.jump (s.readReg c)) := by
  simp [execLoadp, h]

theorem execLoadp_of_load0_ok {m : Memory} (hb : s.readReg b ≠ 0#32) (h : s.mem.load0 (s.readReg b) = .ok m) :
    execLoadp b c s = .next ((s.setMem m).jump (s.readReg c)) := by
  simp [execLoadp, hb, State.segLoad0, h]

theorem execLoadp_of_load0_error {cause : Cause} (hb : s.readReg b ≠ 0#32)
    (h : s.mem.load0 (s.readReg b) = .error cause) :
    execLoadp b c s = .next (s.setRun (.faulted cause)) := by
  simp [execLoadp, hb, State.segLoad0, h]

/-! ### Every meaning answers a next state (R105) -/

/-- Settles O12: a meaning with no guard retires or halts at once, and each branch of a guarded one has its equation
above. -/
theorem everyInstructionAnswersNext : Obligations.EveryInstructionAnswersNext := by
  intro i s
  cases i with
  | cmov a b c => exact ⟨_, retire_eq _⟩
  | sload a b c =>
    cases h : s.mem.read (s.readReg b) (s.readReg c) with
    | error cause => exact ⟨_, execSload_of_read_error h⟩
    | ok w => exact ⟨_, execSload_of_read_ok h⟩
  | sstore a b c =>
    cases h : s.mem.write (s.readReg a) (s.readReg b) (s.readReg c) with
    | error cause => exact ⟨_, execSstore_of_write_error h⟩
    | ok m => exact ⟨_, execSstore_of_write_ok h⟩
  | add a b c => exact ⟨_, retire_eq _⟩
  | mul a b c => exact ⟨_, retire_eq _⟩
  | div a b c =>
    by_cases h : s.readReg c = 0#32
    · exact ⟨_, execDiv_of_eq_zero h⟩
    · exact ⟨_, execDiv_of_ne_zero h⟩
  | nand a b c => exact ⟨_, retire_eq _⟩
  | halt => exact ⟨_, halt_eq s⟩
  | map b c =>
    cases hc : s.memCapacity (s.readReg c) with
    | false => exact ⟨_, execMapUnder_of_refused hc⟩
    | true =>
      cases h : s.mem.alloc (s.readReg c) with
      | error cause => exact ⟨_, execMapUnder_of_alloc_error hc h⟩
      | ok p => exact ⟨_, execMapUnder_of_alloc_ok hc h⟩
  | unmap c =>
    cases h : s.mem.free (s.readReg c) with
    | error cause => exact ⟨_, execUnmap_of_free_error h⟩
    | ok m => exact ⟨_, execUnmap_of_free_ok h⟩
  | out c =>
    obtain h | h := Nat.lt_or_ge 255 (s.readReg c).toNat
    · exact ⟨_, execOut_of_lt h⟩
    · exact ⟨_, execOut_of_le h⟩
  | inp c =>
    cases h : s.offer with
    | nothing => exact ⟨_, execInp_of_offer_nothing h⟩
    | byte v => exact ⟨_, execInp_of_offer_byte h⟩
    | eof => exact ⟨_, execInp_of_offer_eof h⟩
  | loadp b c =>
    by_cases hb : s.readReg b = 0#32
    · exact ⟨_, execLoadp_of_eq_zero hb⟩
    · cases h : s.mem.load0 (s.readReg b) with
      | error cause => exact ⟨_, execLoadp_of_load0_error hb h⟩
      | ok m => exact ⟨_, execLoadp_of_load0_ok hb h⟩
  | loadv a imm => exact ⟨_, retire_eq _⟩

/-! ### When there is a step (R100) -/

/-- From Running there is a step, whichever way the fetch and the decoder go. -/
theorem exists_stepWith_eq_next (hr : s.run = .running) : ∃ t, stepWith reject s = .next t := by
  cases hf : s.fetch with
  | error cause => exact ⟨_, stepWith_of_fetch_error hr hf⟩
  | ok w =>
    cases hd : decode reject w with
    | none => exact ⟨_, stepWith_of_decode_eq_none hr hf hd⟩
    | some i =>
      rw [stepWith_of_instrAt hr (instrAt_eq_some.mpr ⟨w, hf, hd⟩)]
      exact everyInstructionAnswersNext i s

/-- Settles O11: a running block steps (`exists_stepWith_eq_next`), only a running one does (`stepWith_inv`), and the
other two run states have their stuck outcomes. -/
theorem stepExactlyWhenRunning : Obligations.StepExactlyWhenRunning := fun _ _ =>
  ⟨⟨exists_stepWith_eq_next, fun ⟨_, h⟩ => (stepWith_inv h).1⟩, stepWith_of_halted, fun _ => stepWith_of_faulted⟩

/-! ### The fetch (R101) -/

/-- While slot 0 is live, the fetch is a bounds check and a read of its segment. -/
theorem fetch_of_live {g : Segment} (hg : s.mem.slots[0]? = some (.live g)) :
    s.fetch = if g.len ≤ s.pc.toNat then .error .outOfBounds else .ok (g.get s.pc.toNat) :=
  (fetch_eq s).trans (Memory.read_live (Memory.live?_eq_some.mpr hg))

/-- Settles O13: the two sides of the bounds check (`fetch_of_live`), neither of them InvalidSegment. -/
theorem fetchReadsSegmentZero : Obligations.FetchReadsSegmentZero := by
  intro s g hg
  rw [fetch_of_live hg]
  refine ⟨fun hlt => if_neg (Nat.not_le.mpr hlt), fun hle => ⟨if_pos hle, fun hr reject => ?_⟩, ?_⟩
  · exact stepWith_of_fetch_error hr ((fetch_of_live hg).trans (if_pos hle))
  · split
    next => simp
    next => simp

/-! ### How an instruction can end (R105-R107) -/

/-- Every register but the instruction's destination is as before (10_state.md R22). -/
def KeepsOtherRegs (i : Instr) (s t : State) : Prop := ∀ k : RegIdx, destOf i ≠ some k → t.regs[k] = s.regs[k]

theorem KeepsOtherRegs.of_regs_eq (h : t.regs = s.regs) : KeepsOtherRegs i s t := fun _ _ => by rw [h]

theorem KeepsOtherRegs.of_regs_eq_set {d : RegIdx} {v : Word} (hd : destOf i = some d) (h : t.regs = s.regs.set d v) :
    KeepsOtherRegs i s t := by
  intro k hk
  have hne : d.val ≠ k.val := fun e => hk (hd.trans (congrArg some (Fin.ext e)))
  simp [h, hne]

/-- The ways an instruction can end: its fault, the halt, the held IN, LOADP's jump, or going on to the next word with
its writes done. -/
inductive ExecEnd (i : Instr) (s t : State) : Prop where
  /-- It faults, and changes nothing else (R107). -/
  | faulted (cause : Cause) (ht : t = s.setRun (.faulted cause))
  /-- It is HALT (R106). -/
  | halted (hi : i = .halt) (ht : t = s.setRun .halted)
  /-- It is IN with nothing offered (R108). -/
  | held (c : RegIdx) (hi : i = .inp c) (ho : s.offer = .nothing) (ht : t = s)
  /-- It is LOADP, and pc is redirected (R106). -/
  | redirected (b c : RegIdx) (hi : i = .loadp b c) (hpc : t.pc = s.readReg c) (hregs : t.regs = s.regs)
  /-- Its writes are done and pc has gone on by one (R105, R106). -/
  | retired (hpc : t.pc = s.advance.pc) (hregs : KeepsOtherRegs i s t)

theorem exec_end (h : exec i s = .next t) : ExecEnd i s t := by
  cases i with
  | cmov a b c =>
    obtain ⟨-, rfl⟩ | ⟨-, rfl⟩ := execCmov_inv h
    · exact .retired rfl (.of_regs_eq_set rfl rfl)
    · exact .retired rfl (.of_regs_eq rfl)
  | sload a b c =>
    obtain ⟨w, -, rfl⟩ | ⟨cause, -, ht⟩ := execSload_inv h
    · exact .retired rfl (.of_regs_eq_set rfl rfl)
    · exact .faulted cause ht
  | sstore a b c =>
    obtain ⟨m, -, rfl⟩ | ⟨cause, -, ht⟩ := execSstore_inv h
    · exact .retired rfl (.of_regs_eq rfl)
    · exact .faulted cause ht
  | add a b c =>
    obtain rfl := aluWrite_inv (f := aluAdd) h
    exact .retired rfl (.of_regs_eq_set rfl rfl)
  | mul a b c =>
    obtain rfl := aluWrite_inv (f := aluMul) h
    exact .retired rfl (.of_regs_eq_set rfl rfl)
  | div a b c =>
    obtain ⟨-, rfl⟩ | ⟨-, ht⟩ := execDiv_inv h
    · exact .retired rfl (.of_regs_eq_set rfl rfl)
    · exact .faulted _ ht
  | nand a b c =>
    obtain rfl := aluWrite_inv (f := aluNand) h
    exact .retired rfl (.of_regs_eq_set rfl rfl)
  | halt => exact .halted rfl (execHalt_inv h)
  | map b c =>
    obtain ⟨id, m, -, -, rfl⟩ | ⟨-, ht⟩ | ⟨-, cause, -, ht⟩ := execMap_inv h
    · exact .retired rfl (.of_regs_eq_set rfl rfl)
    · exact .faulted _ ht
    · exact .faulted cause ht
  | unmap c =>
    obtain ⟨m, -, rfl⟩ | ⟨cause, -, ht⟩ := execUnmap_inv h
    · exact .retired rfl (.of_regs_eq rfl)
    · exact .faulted cause ht
  | out c =>
    obtain ⟨-, rfl⟩ | ⟨-, ht⟩ := execOut_inv h
    · exact .retired rfl (.of_regs_eq rfl)
    · exact .faulted _ ht
  | inp c =>
    obtain ⟨ho, ht⟩ | ⟨v, -, rfl⟩ | ⟨-, rfl⟩ := execInp_inv h
    · exact .held c rfl ho ht
    · exact .retired rfl (.of_regs_eq_set rfl rfl)
    · exact .retired rfl (.of_regs_eq_set rfl rfl)
  | loadp b c =>
    obtain ⟨-, rfl⟩ | ⟨-, m, -, rfl⟩ | ⟨-, cause, -, ht⟩ := execLoadp_inv h
    · exact .redirected b c rfl rfl rfl
    · exact .redirected b c rfl rfl rfl
    · exact .faulted cause ht
  | loadv a imm =>
    obtain rfl := execLoadv_inv h
    exact .retired rfl (.of_regs_eq_set rfl rfl)

/-- Settles O15: of the ways to end (`exec_end`), only retiring writes a register, and then its destination. -/
theorem oneRegisterWritten : Obligations.OneRegisterWritten := by
  intro i s t k h hk
  obtain ⟨cause, rfl⟩ | ⟨-, rfl⟩ | ⟨c, -, -, rfl⟩ | ⟨b, c, -, -, hregs⟩ | ⟨-, hregs⟩ := exec_end h
  · rfl
  · rfl
  · rfl
  · rw [hregs]
  · exact hregs k hk

/-! ### The next pc (R106) -/

theorem State.advance_pc_toNat : s.advance.pc.toNat = (s.pc.toNat + 1) % 2 ^ 32 := BitVec.toNat_ofNat _ _

/-- A step that ends in a fault leaves pc at the faulting instruction (60_exceptions.md R182). -/
theorem pc_of_stepWith_faulted {cause : Cause} (h : stepWith reject s = .next t) (ht : t.run = .faulted cause) :
    t.pc = s.pc := by
  obtain hrun | ⟨cause', rfl⟩ | ⟨-, rfl⟩ := stepWith_run h
  · simp [hrun] at ht
  · rfl
  · rfl

/-- An instruction that ends a running block's run is HALT, or faults. -/
theorem exec_leaves_running (hr : s.run = .running) (h : exec i s = .next t) (ht : t.run ≠ .running) :
    (i = .halt ∧ t.run = .halted ∧ t.pc = s.pc) ∨ ∃ cause, t.run = .faulted cause := by
  by_cases hi : i = .halt
  · subst hi
    obtain rfl := execHalt_inv h
    exact .inl ⟨rfl, rfl, rfl⟩
  · obtain hrun | ⟨cause, rfl⟩ := exec_run_of_ne_halt hi h
    · exact absurd (hrun.trans hr) ht
    · exact .inr ⟨cause, rfl⟩

theorem pc_of_exec_loadp (h : exec (.loadp b c) s = .next t) (ht : t.run = .running) : t.pc = s.regs[c] := by
  obtain ⟨-, rfl⟩ | ⟨-, m, -, rfl⟩ | ⟨-, cause, -, rfl⟩ := execLoadp_inv h
  · rfl
  · rfl
  · simp at ht

/-- An instruction that leaves the block running goes on to the next word, unless it is LOADP or a held IN. -/
theorem exec_advances_or_holds (h : exec i s = .next t) (ht : t.run = .running) (hloadp : ∀ b c, i ≠ .loadp b c) :
    t.pc = s.advance.pc ∨ (t = s ∧ s.offer = .nothing ∧ ∃ c, i = .inp c) := by
  obtain ⟨cause, rfl⟩ | ⟨-, rfl⟩ | ⟨c, hi, ho, rfl⟩ | ⟨b, c, hi, -, -⟩ | ⟨hpc, -⟩ := exec_end h
  · simp at ht
  · simp at ht
  · exact .inr ⟨rfl, ho, c, hi⟩
  · exact absurd hi (hloadp b c)
  · exact .inl hpc

/-- Settles O14: the step is the meaning of the instruction at pc, and each clause is how that one can end. -/
theorem nextPc : Obligations.NextPc := by
  intro reject s t h
  have hr : s.run = .running := (stepWith_inv h).1
  have hexec : ∀ w i, s.mem.read 0#32 s.pc = .ok w → decode reject w = some i → exec i s = .next t :=
    fun w i hf hd => (stepRunsDecodedInstruction.1 reject s w i hr hf hd).symm.trans h
  refine ⟨fun cause => pc_of_stepWith_faulted h, fun w i hf hd => exec_leaves_running hr (hexec w i hf hd),
    fun w hf hd => ?_, fun w b c hf hd => pc_of_exec_loadp (hexec w _ hf hd), fun w i hf hd ht _ hloadp => ?_⟩
  · obtain rfl := execHalt_inv (hexec w _ hf hd)
    exact ⟨rfl, rfl⟩
  · rw [← State.advance_pc_toNat, BitVec.toNat_inj, ← and_assoc (a := s.inq = []), ← State.offer_eq_nothing]
    exact exec_advances_or_holds (hexec w i hf hd) ht hloadp

/-! ### The held IN (R108) -/

/-- The host's acts leave the instruction at pc in its place. -/
@[simp] theorem instrAt_host (e : HostEvent) : (s.host e).instrAt reject = s.instrAt reject := by
  simp [State.instrAt, fetch_eq]

/-- Once the host supplies a byte, a held IN takes it: the byte zero-extended in its register, and none left over. -/
theorem execInp_host_supply (hq : s.inq = []) (hc : s.inClosed = false) (v : Byte) :
    execInp c (s.host (.supply v)) =
      .next { s with regs := s.regs.set c (BitVec.ofNat 32 v.toNat), pc := s.pc + 1#32 } := by
  have hhost : s.host (.supply v) = { s with inq := [v] } := by simp [State.host, hq, hc]
  have ho : (s.host (.supply v)).offer = .byte v := State.offer_eq_byte.mpr ⟨[], by rw [hhost]⟩
  rw [execInp_of_offer_byte ho, hhost, State.advance_eq]
  simp [State.writeReg, State.takeInput, hq]

/-- Once the host closes the input, a held IN gives the end-of-stream word. -/
theorem execInp_host_close (hq : s.inq = []) :
    execInp c (s.host .close) =
      .next { s with regs := s.regs.set c 0xFFFFFFFF#32, pc := s.pc + 1#32, inClosed := true } := by
  have ho : (s.host .close).offer = .eof := State.offer_eq_eof.mpr ⟨hq, rfl⟩
  rw [execInp_of_offer_eof ho, State.advance_eq]
  rfl

/-- Settles O16: neither act of the host moves the IN from pc (`instrAt_host`), so each step is the IN's own, with the
port offering nothing, then a byte, then end of stream. -/
theorem heldInputResumes : Obligations.HeldInputResumes := by
  intro reject s w c hr hf hd hq hc
  have hi : s.instrAt reject = some (.inp c) := instrAt_eq_some.mpr ⟨w, hf, hd⟩
  have hresume : ∀ e, stepWith reject (s.host e) = execInp c (s.host e) := fun e =>
    stepWith_of_instrAt ((host_run e).trans hr) ((instrAt_host e).trans hi)
  refine ⟨?_, fun v => (hresume (.supply v)).trans (execInp_host_supply hq hc v),
    (hresume .close).trans (execInp_host_close hq)⟩
  rw [stepWith_of_instrAt hr hi]
  exact execInp_of_offer_nothing (State.offer_eq_nothing.mpr ⟨hq, hc⟩)

end Sys2Proof.Machine
end

section
/-! PROOFS. The move and memory instructions (41_move_memory.md): the word each is decoded from (R78), CMOV's two cases
(R120), and SLOAD and SSTORE as one request to the segment memory each, with its faults (R121, R122). -/

namespace Sys2Proof

/-- A format-R opcode's word decodes to that opcode's instruction, over the word's own register fields (R78). -/
theorem decode_of_opField_eq_threeReg {reject : Bool} {w : Word} {op : BitVec 4} (h : opField w = op)
    (hop : op.toNat ≤ 12) (hres : reject = true → reservedField w = 0#19) :
    decode reject w = (Decoded.threeReg op (aField w) (bField w) (cField w)).instr := by
  subst h
  exact decode_of_opField_le hop hres

namespace Machine

variable {s : State} {a b c : RegIdx}

/-! ### The requests' faults, and a write's frame (20_memory.md R46, R47) -/

namespace Memory

variable {m m' : Memory} {k i j v : Word} {g : Segment}

theorem read_eq_outOfBounds (hg : m.live? k = some g) (hi : g.len ≤ i.toNat) : m.read k i = .error .outOfBounds :=
  read_eq_error.mpr (.inr ⟨g, hg, hi, rfl⟩)

theorem write_eq_outOfBounds (hg : m.live? k = some g) (hi : g.len ≤ i.toNat) :
    m.write k i v = .error .outOfBounds :=
  write_eq_error.mpr (.inr ⟨g, hg, hi, rfl⟩)

theorem write_dead (h : m.live? k = none) : m.write k i v = .error .invalidSegment :=
  write_eq_error.mpr (.inl ⟨h, rfl⟩)

theorem exists_write_eq_ok (hg : m.live? k = some g) (hi : i.toNat < g.len) : ∃ m', m.write k i v = .ok m' :=
  ⟨_, write_eq_ok.mpr ⟨g, hg, hi, rfl⟩⟩

theorem write_freeq (hw : m.write k i v = .ok m') : m'.freeq = m.freeq := by
  obtain ⟨g, -, -, rfl⟩ := write_eq_ok.mp hw
  rfl

/-- A write changes what one address reads and no other: it is seen neither in another segment nor at another index. -/
theorem read_write_of_address_ne {l : Word} (h : m.wf = true) (hw : m.write k i v = .ok m') (hne : (l, j) ≠ (k, i)) :
    m'.read l j = m.read l j := by
  by_cases hl : l = k
  · subst hl
    exact read_write_of_ne_index h hw fun hj => hne (by rw [hj])
  · exact read_write_of_ne hw hl j

end Memory

/-! ### CMOV (R120) -/

theorem execCmov_of_ne_zero (h : s.readReg c ≠ 0#32) :
    execCmov a b c s = .next (s.writeReg a (s.readReg b)).advance := by
  simp [execCmov, State.operands, h]

theorem execCmov_of_eq_zero (h : s.readReg c = 0#32) : execCmov a b c s = .next s.advance := by
  simp [execCmov, State.operands, h]

/-- Settles O18: the two values of the condition, each with the register file and pc written out. -/
theorem cmovRule : Obligations.CmovRule := by
  refine ⟨fun _ _ hop hres => decode_of_opField_eq_threeReg hop (by decide) hres, fun a b c s hc => ?_,
    fun a b c s hc => ?_⟩
  · exact (execCmov_of_ne_zero hc).trans (by rw [State.advance_eq]; rfl)
  · exact (execCmov_of_eq_zero hc).trans (by rw [State.advance_eq])

/-! ### SLOAD (R121) -/

/-- Settles O19: the READ at the address in x[B] and x[C], by whether x[B] names a live segment and, if so, whether
x[C] lies inside it. -/
theorem sloadRule : Obligations.SloadRule := by
  refine ⟨fun _ _ hop hres => decode_of_opField_eq_threeReg hop (by decide) hres, fun a b c s g hg hi => ?_,
    fun a b c s hdead => ?_, fun a b c s g hg hi => ?_⟩
  · have hread : s.mem.read (s.readReg b) (s.readReg c) = .ok (g.get s.regs[c].toNat) :=
      Memory.read_eq_ok.mpr ⟨g, Memory.live?_eq_some.mpr hg, hi, rfl⟩
    exact (execSload_of_read_ok hread).trans (by rw [State.advance_eq]; rfl)
  · exact execSload_of_read_error (Memory.read_dead (Memory.live?_eq_none_of hdead))
  · exact execSload_of_read_error (Memory.read_eq_outOfBounds (Memory.live?_eq_some.mpr hg) hi)

/-! ### SSTORE (R122) -/

/-- Settles O20: the WRITE at the address in x[A] and x[B], by whether x[A] names a live segment and, if so, whether
x[B] lies inside it; the frame is the write's own (`Memory.read_write_of_address_ne`). -/
theorem sstoreRule : Obligations.SstoreRule := by
  refine ⟨fun _ _ hop hres => decode_of_opField_eq_threeReg hop (by decide) hres, fun a b c s g hwf hg hi => ?_,
    fun a b c s hdead => ?_, fun a b c s g hg hi => ?_⟩
  · obtain ⟨m, hw⟩ := Memory.exists_write_eq_ok (v := s.regs[c]) (Memory.live?_eq_some.mpr hg) hi
    have hexec : exec (.sstore a b c) s = .next { s with mem := m, pc := s.pc + 1#32 } :=
      (execSstore_of_write_ok hw).trans (by rw [State.advance_eq]; rfl)
    exact ⟨m, hexec, Memory.write_freeq hw, Memory.write_slots_length hw, Memory.read_write_same hwf hw,
      fun _ _ => Memory.read_write_of_address_ne hwf hw⟩
  · exact execSstore_of_write_error (Memory.write_dead (Memory.live?_eq_none_of hdead))
  · exact execSstore_of_write_error (Memory.write_eq_outOfBounds (Memory.live?_eq_some.mpr hg) hi)

end Machine

end Sys2Proof
end

section
/-! PROOFS. The ALU instructions (42_alu.md): each operation as a number or bit by bit (R130-R134), the result written
to x[A] (R130-R133), DIV's fault, and the identities (R136). -/

namespace Sys2Proof.Machine

variable {s : State} {a b c : RegIdx}

/-! ### The operations (R130-R134) -/

theorem aluAdd_toNat (u v : Word) : (aluAdd u v).toNat = (u.toNat + v.toNat) % 2 ^ 32 := BitVec.toNat_ofNat _ _

theorem aluMul_toNat (u v : Word) : (aluMul u v).toNat = (u.toNat * v.toNat) % 2 ^ 32 := BitVec.toNat_ofNat _ _

/-- A quotient is at most its dividend, so it fits in a word. -/
theorem aluDiv_toNat (u v : Word) : (aluDiv u v).toNat = u.toNat / v.toNat :=
  (BitVec.toNat_ofNat _ _).trans (Nat.mod_eq_of_lt ((Nat.div_le_self _ _).trans_lt u.isLt))

theorem aluNand_getLsbD {i : Nat} (u v : Word) (hi : i < 32) :
    (aluNand u v).getLsbD i = !(u.getLsbD i && v.getLsbD i) := by
  simp [aluNand, hi]

/-- ADD's sum reduced modulo 2^32 is the word's own addition. -/
theorem aluAdd_eq_add (u v : Word) : aluAdd u v = u + v := BitVec.eq_of_toNat_eq (aluAdd_toNat u v)

/-! ### The result written, the next state written out -/

/-- The state in which `v` has been written to x[A] and pc has gone on to the next word. -/
theorem advance_writeReg_eq (v : Word) :
    (s.writeReg a v).advance = { s with regs := s.regs.set a v, pc := s.pc + 1#32 } :=
  State.advance_eq

theorem aluWrite_eq (f : Word → Word → Word) :
    aluWrite f a b c s = .next { s with regs := s.regs.set a (f s.regs[b] s.regs[c]), pc := s.pc + 1#32 } :=
  congrArg Host.Outcome.next (advance_writeReg_eq _)

/-- Settles O21: the one result is `aluAdd`'s, written as every ALU result is (`aluWrite_eq`). -/
theorem addRule : Obligations.AddRule :=
  ⟨fun _ _ hop hres => decode_of_opField_eq_threeReg hop (by decide) hres,
    fun _ b c s => ⟨aluAdd s.regs[b] s.regs[c], aluAdd_toNat _ _, aluWrite_eq aluAdd⟩⟩

/-- Settles O22: the one result is `aluMul`'s, written as every ALU result is (`aluWrite_eq`). -/
theorem mulRule : Obligations.MulRule :=
  ⟨fun _ _ hop hres => decode_of_opField_eq_threeReg hop (by decide) hres,
    fun _ b c s => ⟨aluMul s.regs[b] s.regs[c], aluMul_toNat _ _, aluWrite_eq aluMul⟩⟩

/-- Settles O24: the one result is `aluNand`'s, written as every ALU result is (`aluWrite_eq`). -/
theorem nandRule : Obligations.NandRule :=
  ⟨fun _ _ hop hres => decode_of_opField_eq_threeReg hop (by decide) hres,
    fun _ b c s => ⟨aluNand s.regs[b] s.regs[c], fun _ hi => aluNand_getLsbD _ _ hi, aluWrite_eq aluNand⟩⟩

/-! ### DIV (R132, R135) -/

/-- Settles O23: a nonzero divisor bounds the dividend by its quotient on both sides (R135), and a zero one is DIV's
only fault. -/
theorem divRule : Obligations.DivRule := by
  refine ⟨fun _ _ hop hres => decode_of_opField_eq_threeReg hop (by decide) hres, fun a b c s hc => ?_,
    fun a b c s hc => execDiv_of_eq_zero hc⟩
  have hpos : 0 < s.regs[c].toNat := Nat.pos_of_ne_zero fun h => hc (Memory.toNat_zero_iff.mp h)
  have hq := aluDiv_toNat s.regs[b] s.regs[c]
  refine ⟨aluDiv s.regs[b] s.regs[c], hq, ?_, ?_, ?_⟩
  · rw [hq]
    exact Nat.div_mul_le_self _ _
  · rw [hq]
    exact (Nat.div_lt_iff_lt_mul hpos).mp (Nat.lt_succ_self _)
  · exact (execDiv_of_ne_zero hc).trans (congrArg Host.Outcome.next (advance_writeReg_eq _))

/-! ### The identities (R136) -/

theorem aluNand_self (v : Word) : aluNand v v = ~~~v := by
  simp [aluNand]

/-- Settles O25: NAND of a word with itself is its NOT (`aluNand_self`); AND is then a double negation, OR De Morgan's
law, and the difference the two's complement sum. -/
theorem aluIdentities : Obligations.AluIdentities := by
  refine ⟨aluNand_self, fun u v => ?_, fun u v => ?_, fun u v => ?_, rfl, fun k => ?_⟩
  · rw [aluNand_self, aluNand, BitVec.not_not]
  · rw [aluNand_self, aluNand_self, aluNand, BitVec.not_and, BitVec.not_not, BitVec.not_not]
  · rw [aluNand_self, aluAdd_eq_add, aluAdd_eq_add, BitVec.add_assoc, ← BitVec.neg_eq_not_add,
      ← BitVec.sub_eq_add_neg]
  · exact Vector.getElem_replicate k.isLt

end Sys2Proof.Machine
end

section
/-! PROOFS. HALT and the segment instructions (43_halt_segment.md): HALT's effect (R150), MAP as one allocation with its
refusal (R151), and UNMAP as one free, after which its identifier names nothing (R152). -/

namespace Sys2Proof.Machine

variable {s t : State} {b c : RegIdx}

/-! ### HALT (R150) -/

/-- Settles O26: HALT's word, its rejection where bits 27-9 are checked, and its only effect, after which no step has a
next state (`stepWith_of_halted`). -/
theorem haltRule : Obligations.HaltRule := by
  refine ⟨fun _ _ hop hres => decode_of_opField_eq_threeReg hop (by decide) hres, fun w hop hres s hr hf => ?_,
    fun s => ⟨halt_eq s, fun reject t h => ?_⟩⟩
  · have hne : opField w ≠ 13#4 := by simp [hop]
    exact stepWith_of_decode_eq_none hr hf (decode_of_reservedField_ne hne hres)
  · simp [stepWith_of_halted] at h

/-! ### MAP (R151) -/

/-- With no identifier left, MAP raises ResourceExhausted whatever the capacity. -/
theorem exec_map_of_no_identifier (hq : s.mem.freeq = []) (hfull : 2 ^ 32 ≤ s.mem.slots.length) :
    exec (.map b c) s = .next (s.setRun (.faulted .resourceExhausted)) := by
  cases hc : s.memCapacity (s.readReg c) with
  | false => exact execMapUnder_of_refused hc
  | true => exact execMapUnder_of_alloc_error hc (Memory.alloc_eq_error.mpr ⟨hq, hfull, rfl⟩)

/-- A MAP after which the block still runs was granted, and x[B] holds the identifier that the allocation gave. -/
theorem alloc_of_exec_map (h : exec (.map b c) s = .next t) (ht : t.run = .running) :
    s.mem.alloc (s.readReg c) = .ok (t.regs[b], t.mem) := by
  obtain ⟨id, m, -, ha, rfl⟩ | ⟨-, rfl⟩ | ⟨-, cause, -, rfl⟩ := execMap_inv h
  · simpa using ha
  · simp at ht
  · simp at ht

/-- Settles O27: the two ways an allocation is granted give the two identifiers and a segment of zeros
(`execMapUnder_granted`), neither of them 0 (`alloc_ne_zero`), and the two ways it is refused give one fault. -/
theorem mapRule : Obligations.MapRule := by
  refine ⟨fun _ _ hop hres => decode_of_opField_eq_threeReg hop (by decide) hres, fun b c s id rest hc hq => ?_,
    fun b c s hc hq hlt => ?_, fun b c s t hinv _ h ht => ?_, fun b c s hfault => ?_⟩
  · obtain ⟨limits, hexec⟩ :=
      execMapUnder_granted (b := b) hc (Memory.alloc_eq_ok.mpr (.inl ⟨rest, hq, rfl⟩))
    exact ⟨limits, .zeros s.regs[c].toNat, hexec, Segment.zeros_len _, Segment.zeros_get _⟩
  · obtain ⟨limits, hexec⟩ :=
      execMapUnder_granted (b := b) hc (Memory.alloc_eq_ok.mpr (.inr ⟨hq, hlt, rfl, by rw [hq]⟩))
    exact ⟨limits, .zeros s.regs[c].toNat, _, hexec, (BitVec.toNat_ofNat _ _).trans (Nat.mod_eq_of_lt hlt),
      Segment.zeros_len _, Segment.zeros_get _⟩
  · exact Memory.alloc_ne_zero hinv.mem (alloc_of_exec_map h ht)
  · obtain hc | ⟨hq, hfull⟩ := hfault
    · exact execMapUnder_of_refused hc
    · exact exec_map_of_no_identifier hq hfull

/-! ### UNMAP (R152) -/

namespace Memory

variable {m m' : Memory} {k i v : Word}

theorem free_slots (hf : m.free k = .ok m') : m'.slots = m.slots.set k.toNat .empty := by
  obtain ⟨-, g, -, rfl⟩ := free_eq_ok.mp hf
  rfl

/-- An identifier that names nothing and is not 0 faults in every access: READ, WRITE, FREE and LOAD0 (20_memory.md
R45-R48). -/
theorem accesses_dead (hk : k ≠ 0#32) (h : m.live? k = none) :
    m.read k i = .error .invalidSegment ∧ m.write k i v = .error .invalidSegment ∧
      m.free k = .error .invalidSegment ∧ m.load0 k = .error .invalidSegment :=
  ⟨read_dead h, write_dead h, free_eq_error.mpr ⟨.inr h, rfl⟩, load0_eq_error.mpr ⟨hk, h, rfl⟩⟩

end Memory

/-- Settles O31: the FREE of x[C], granted where x[C] names a live segment other than 0; the freed identifier names
nothing (`live?_free`), so every access to it faults (`accesses_dead`). -/
theorem unmapRule : Obligations.UnmapRule := by
  refine ⟨fun _ _ hop hres => decode_of_opField_eq_threeReg hop (by decide) hres, fun c s g hne hg => ?_,
    fun c s hfault => ?_⟩
  · obtain ⟨m, hfree⟩ := Memory.exists_free_eq_ok hne (Memory.live?_eq_some.mpr hg)
    have hexec : exec (.unmap c) s = .next { s with mem := m, pc := s.pc + 1#32 } :=
      (execUnmap_of_free_ok hfree).trans (by rw [State.advance_eq]; rfl)
    have hdead : m.live? s.regs[c] = none := (Memory.live?_free hfree _).trans (if_pos rfl)
    exact ⟨m, hexec, Memory.free_slots hfree, Memory.free_freeq hfree, fun _ _ => Memory.accesses_dead hne hdead⟩
  · exact execUnmap_of_free_error (Memory.free_eq_error.mpr ⟨hfault.imp_right Memory.live?_eq_none_of, rfl⟩)

end Sys2Proof.Machine
end

section
/-! PROOFS. The byte I/O instructions and their ports (44_io.md): OUT with its fault (R160), IN at each offer (R161),
who changes the output and the input (R162, R163), and the sticky end of stream (R164). -/

namespace Sys2Proof.Machine

variable {s t : State} {c : RegIdx} {i : Instr} {reject : Bool}

/-! ### OUT and IN (R160, R161) -/

/-- The low byte of a value that fits in a byte is the value. -/
theorem toNat_setWidth_of_le {x : Word} (h : x.toNat ≤ 255) : (x.setWidth 8).toNat = x.toNat :=
  (BitVec.toNat_setWidth 8 x).trans (Nat.mod_eq_of_lt (by omega))

/-- A byte zero-extended to a word keeps its value. -/
theorem toNat_ofNat_byte (v : Byte) : (BitVec.ofNat 32 v.toNat).toNat = v.toNat :=
  (BitVec.toNat_ofNat _ _).trans (Nat.mod_eq_of_lt (by omega))

/-- Settles O38: the two sides of the range check, each with its next state written out; the byte emitted is x[C]'s own
value (`toNat_setWidth_of_le`). -/
theorem outRule : Obligations.OutRule := by
  refine ⟨fun _ _ hop hres => decode_of_opField_eq_threeReg hop (by decide) hres, fun c s hle => ?_,
    fun c s hlt => execOut_of_lt hlt⟩
  exact ⟨s.regs[c].setWidth 8, toNat_setWidth_of_le hle, (execOut_of_le hle).trans (by rw [State.advance_eq]; rfl)⟩

/-- Settles O39: the three offers of the port, each of which the stream and its mark decide; the byte taken is the head
of the stream. -/
theorem inRule : Obligations.InRule := by
  refine ⟨fun _ _ hop hres => decode_of_opField_eq_threeReg hop (by decide) hres, fun c s v rest hq => ?_,
    fun c s hq hc => ?_, fun c s t hq hc h => ?_⟩
  · have hexec := execInp_of_offer_byte (c := c) (State.offer_eq_byte.mpr ⟨rest, hq⟩)
    refine ⟨BitVec.ofNat 32 v.toNat, toNat_ofNat_byte v, hexec.trans ?_⟩
    rw [State.advance_eq]
    simp [State.writeReg, State.takeInput, hq]
  · have hexec := execInp_of_offer_eof (c := c) (State.offer_eq_eof.mpr ⟨hq, hc⟩)
    exact hexec.trans (congrArg Host.Outcome.next (advance_writeReg_eq _))
  · have hexec : exec (.inp c) s = .next s := execInp_of_offer_nothing (State.offer_eq_nothing.mpr ⟨hq, hc⟩)
    simpa [hexec] using h.symm

/-! ### What each instruction leaves of the ports (R162, R163) -/

/-- The output, the input stream and its end-of-stream mark are as before. -/
structure PortsKept (s t : State) : Prop where
  /-- Nothing is emitted. -/
  outq : t.outq = s.outq
  /-- Nothing is taken. -/
  inq : t.inq = s.inq
  /-- The input is open or closed as before. -/
  inClosed : t.inClosed = s.inClosed

/-- An instruction other than OUT and IN leaves the ports alone. -/
theorem exec_keeps_ports (hout : ∀ c, i ≠ .out c) (hinp : ∀ c, i ≠ .inp c) (h : exec i s = .next t) :
    PortsKept s t := by
  cases i with
  | cmov a b c =>
    obtain ⟨-, rfl⟩ | ⟨-, rfl⟩ := execCmov_inv h <;> exact ⟨rfl, rfl, rfl⟩
  | sload a b c =>
    obtain ⟨w, -, rfl⟩ | ⟨cause, -, rfl⟩ := execSload_inv h <;> exact ⟨rfl, rfl, rfl⟩
  | sstore a b c =>
    obtain ⟨m, -, rfl⟩ | ⟨cause, -, rfl⟩ := execSstore_inv h <;> exact ⟨rfl, rfl, rfl⟩
  | add a b c =>
    obtain rfl := aluWrite_inv (f := aluAdd) h
    exact ⟨rfl, rfl, rfl⟩
  | mul a b c =>
    obtain rfl := aluWrite_inv (f := aluMul) h
    exact ⟨rfl, rfl, rfl⟩
  | div a b c =>
    obtain ⟨-, rfl⟩ | ⟨-, rfl⟩ := execDiv_inv h <;> exact ⟨rfl, rfl, rfl⟩
  | nand a b c =>
    obtain rfl := aluWrite_inv (f := aluNand) h
    exact ⟨rfl, rfl, rfl⟩
  | halt =>
    obtain rfl := execHalt_inv h
    exact ⟨rfl, rfl, rfl⟩
  | map b c =>
    obtain ⟨id, m, -, -, rfl⟩ | ⟨-, rfl⟩ | ⟨-, cause, -, rfl⟩ := execMap_inv h <;> exact ⟨rfl, rfl, rfl⟩
  | unmap c =>
    obtain ⟨m, -, rfl⟩ | ⟨cause, -, rfl⟩ := execUnmap_inv h <;> exact ⟨rfl, rfl, rfl⟩
  | out c => exact absurd rfl (hout c)
  | inp c => exact absurd rfl (hinp c)
  | loadp b c =>
    obtain ⟨-, rfl⟩ | ⟨-, m, -, rfl⟩ | ⟨-, cause, -, rfl⟩ := execLoadp_inv h <;> exact ⟨rfl, rfl, rfl⟩
  | loadv a imm =>
    obtain rfl := execLoadv_inv h
    exact ⟨rfl, rfl, rfl⟩

/-- OUT leaves the input port alone, whether it emits its byte or faults. -/
theorem exec_out_input (h : exec (.out c) s = .next t) : t.inq = s.inq ∧ t.inClosed = s.inClosed := by
  obtain ⟨-, rfl⟩ | ⟨-, rfl⟩ := execOut_inv h <;> exact ⟨rfl, rfl⟩

/-- IN emits nothing, keeps the mark, and takes the first byte of the stream or none. -/
theorem exec_inp_ports (h : exec (.inp c) s = .next t) :
    t.outq = s.outq ∧ t.inClosed = s.inClosed ∧ (t.inq = s.inq ∨ ∃ v, s.inq = v :: t.inq) := by
  obtain ⟨-, rfl⟩ | ⟨v, ho, rfl⟩ | ⟨-, rfl⟩ := execInp_inv h
  · exact ⟨rfl, rfl, .inl rfl⟩
  · obtain ⟨rest, hq⟩ := State.offer_eq_byte.mp ho
    exact ⟨rfl, rfl, .inr ⟨v, by simp [hq]⟩⟩
  · exact ⟨rfl, rfl, .inl rfl⟩

/-- Settles O41: IN is the only instruction that takes input (`exec_inp_ports`); OUT (`exec_out_input`) and the others
(`exec_keeps_ports`) leave the input port alone. -/
theorem inputTakenByIn : Obligations.InputTakenByIn := by
  intro i s t h
  by_cases hinp : ∃ c, i = .inp c
  · obtain ⟨c, rfl⟩ := hinp
    obtain ⟨-, hc, hq⟩ := exec_inp_ports h
    exact ⟨hc, hq.imp_right fun ⟨v, hv⟩ => ⟨c, v, rfl, hv⟩⟩
  by_cases hout : ∃ c, i = .out c
  · obtain ⟨c, rfl⟩ := hout
    obtain ⟨hq, hc⟩ := exec_out_input h
    exact ⟨hc, .inl hq⟩
  · push Not at hinp hout
    have hkept := exec_keeps_ports hout hinp h
    exact ⟨hkept.inClosed, .inl hkept.inq⟩

/-- An instruction other than OUT emits nothing. -/
theorem exec_outq_of_ne_out (hout : ∀ c, i ≠ .out c) (h : exec i s = .next t) : t.outq = s.outq := by
  by_cases hinp : ∃ c, i = .inp c
  · obtain ⟨c, rfl⟩ := hinp
    exact (exec_inp_ports h).1
  · push Not at hinp
    exact (exec_keeps_ports hout hinp h).outq

/-- Settles O40: a step that faults before it executes and an instruction other than OUT (`exec_outq_of_ne_out`) keep
the output; an OUT at pc either emits x[C] or faults (`execOut_inv`). -/
theorem outputGrowsByOut : Obligations.OutputGrowsByOut := by
  intro reject s t h
  obtain ⟨hr, ⟨cause, -, rfl⟩ | ⟨w, -, -, rfl⟩ | ⟨w, i, hf, hd, he⟩⟩ := stepWith_inv h
  · exact .inl ⟨rfl, fun _ _ _ _ => by simp⟩
  · exact .inl ⟨rfl, fun _ _ _ _ => by simp⟩
  by_cases hout : ∃ c, i = .out c
  · obtain ⟨c, rfl⟩ := hout
    obtain ⟨hle, rfl⟩ | ⟨-, rfl⟩ := execOut_inv he
    · exact .inr ⟨w, c, _, hf, hd, hr, toNat_setWidth_of_le hle, rfl⟩
    · exact .inl ⟨rfl, fun _ _ _ _ => by simp⟩
  · push Not at hout
    refine .inl ⟨exec_outq_of_ne_out hout he, fun w' c hf' hd' => ?_⟩
    obtain rfl : w = w' := by simpa [hf] using hf'
    exact absurd (by simpa [hd] using hd') (hout c)

/-! ### End of stream (R164) -/

/-- The host's acts change nothing of a closed input port (log entry 11). -/
theorem host_of_inClosed (hc : s.inClosed = true) (e : HostEvent) : s.host e = s := by
  cases e with
  | supply v => simp [State.host, hc]
  | close => simp [State.host, ← hc]

/-- A step from the end of stream keeps the port there: the mark stays, and no byte is left to take. -/
theorem stepWith_offer_eq_eof (ho : s.offer = .eof) (h : stepWith reject s = .next t) : t.offer = .eof := by
  obtain ⟨-, ⟨cause, -, rfl⟩ | ⟨w, -, -, rfl⟩ | ⟨w, i, -, -, he⟩⟩ := stepWith_inv h
  · exact ho
  · exact ho
  obtain ⟨hclosed, hq | ⟨c, v, -, hq⟩⟩ := inputTakenByIn i s t he
  · exact (State.offer_congr hq hclosed).trans ho
  · simp [(State.offer_eq_eof.mp ho).1] at hq

/-- Settles O42: the port at end of stream is kept there by every step (`stepWith_offer_eq_eof`) and by every act of the
host (`host_of_inClosed`), so in every run. -/
theorem endOfStreamIsSticky : Obligations.EndOfStreamIsSticky := by
  intro reject s t hq hc hreach
  have ho : t.offer = .eof := by
    refine hreach.keeps (p := fun u => u.offer = .eof) (State.offer_eq_eof.mpr ⟨hq, hc⟩)
      (fun u v hu hstep => stepWith_offer_eq_eof hu hstep) fun u e hu => ?_
    rw [host_of_inClosed (State.offer_eq_eof.mp hu).2 e, hu]
  exact ⟨ho, State.offer_eq_eof.mp ho⟩

end Sys2Proof.Machine
end

section
/-! PROOFS. The load instructions (45_load.md): LOADP's jump, copy and fault (R170), and LOADV at every immediate
(R171). -/

namespace Sys2Proof.Machine

/-! ### LOADP (R170) -/

/-- Settles O43: with x[B] = 0 there is no LOAD0 request; otherwise the request copies a live segment over segment 0
(`Memory.load0_eq_ok`), and faults where x[B] names none (`Memory.load0_eq_error`). -/
theorem loadpRule : Obligations.LoadpRule := by
  refine ⟨fun _ _ hop hres => decode_of_opField_eq_threeReg hop (by decide) hres,
    fun b c s hb => execLoadp_of_eq_zero hb, fun b c s g hb hg => ?_, fun b c s hb hdead => ?_⟩
  · have hload : s.mem.load0 (s.readReg b) = .ok { s.mem with slots := s.mem.slots.set 0 (.live g) } :=
      Memory.load0_eq_ok.mpr (.inr ⟨hb, g, Memory.live?_eq_some.mpr hg, rfl⟩)
    exact execLoadp_of_load0_ok hb hload
  · have hload : s.mem.load0 (s.readReg b) = .error .invalidSegment :=
      Memory.load0_eq_error.mpr ⟨hb, Memory.live?_eq_none_of hdead, rfl⟩
    exact execLoadp_of_load0_error hb hload

/-! ### LOADV (R171) -/

/-- An immediate that fits its 25-bit field is not reduced by its extension to a word. -/
theorem toNat_immOperand {imm : Nat} (h : imm < 2 ^ 25) : (immOperand imm).toNat = imm :=
  (BitVec.toNat_ofNat _ _).trans (Nat.mod_eq_of_lt (by omega))

/-- Settles O44: the decoder reads the word's low 25 bits (`immField_toNat`), and the word written has the immediate's
own value (`toNat_immOperand`). -/
theorem loadvRule : Obligations.LoadvRule := by
  refine ⟨fun reject w hop => ?_, fun a imm s himm => ?_⟩
  · rw [decode_of_opField_eq hop, immField_toNat]
  · exact ⟨immOperand imm, toNat_immOperand himm, congrArg Host.Outcome.next (advance_writeReg_eq _)⟩

end Sys2Proof.Machine
end

section
/-! PROOFS. Faults and the terminal run states (60_exceptions.md): what raises each cause (R181), that a fault changes
the run state alone (R183), and that Halted and Faulted are final (R186, R192). -/

namespace Sys2Proof.Machine

variable {s t : State} {i : Instr} {reject : Bool} {cause : Cause}

/-! ### What raises each cause (R181) -/

/-- A word that the decoder finds Invalid has an unassigned opcode, or a reserved bit while those are rejected (R75). -/
theorem unassigned_or_reserved_of_decode_eq_none {w : Word} (hd : decode reject w = none) :
    14 ≤ (opField w).toNat ∨ (reject = true ∧ (opField w).toNat ≤ 12 ∧ reservedField w ≠ 0#19) := by
  obtain ⟨h13, -⟩ | ⟨h14 | h15, -⟩ | ⟨h12, hr, hres, -⟩ | ⟨h12, hres, -⟩ := decodeFields_cases reject w
  · simp [decode_of_opField_eq h13] at hd
  · exact .inl (by simp [h14])
  · exact .inl (by simp [h15])
  · exact .inr ⟨hr, h12, hres⟩
  · obtain ⟨i, hi, -⟩ := exists_instr_threeReg (a := aField w) (b := bField w) (c := cField w) h12
    simp [decode_of_opField_le h12 hres, hi] at hd

/-- The rows of R181's table that instructions have: a cause, the instruction that raises it, and when. -/
inductive Raises (s : State) : Instr → Cause → Prop where
  /-- SLOAD from a segment that is not live. -/
  | sloadDead {a b c : RegIdx} (h : s.mem.live? s.regs[b] = none) : Raises s (.sload a b c) .invalidSegment
  /-- SLOAD past the end of a live segment. -/
  | sloadPast {a b c : RegIdx} {g : Segment} (hg : s.mem.live? s.regs[b] = some g) (h : g.len ≤ s.regs[c].toNat) :
      Raises s (.sload a b c) .outOfBounds
  /-- SSTORE to a segment that is not live. -/
  | sstoreDead {a b c : RegIdx} (h : s.mem.live? s.regs[a] = none) : Raises s (.sstore a b c) .invalidSegment
  /-- SSTORE past the end of a live segment. -/
  | sstorePast {a b c : RegIdx} {g : Segment} (hg : s.mem.live? s.regs[a] = some g) (h : g.len ≤ s.regs[b].toNat) :
      Raises s (.sstore a b c) .outOfBounds
  /-- DIV by 0. -/
  | div {a b c : RegIdx} (h : s.regs[c] = 0#32) : Raises s (.div a b c) .divisionByZero
  /-- MAP refused by MEM_CAPACITY, or with no identifier left. -/
  | map {b c : RegIdx} (h : s.memCapacity s.regs[c] = false ∨ (s.mem.freeq = [] ∧ 2 ^ 32 ≤ s.mem.slots.length)) :
      Raises s (.map b c) .resourceExhausted
  /-- UNMAP of segment 0 or of one that is not live. -/
  | unmap {c : RegIdx} (h : s.regs[c] = 0#32 ∨ s.mem.live? s.regs[c] = none) : Raises s (.unmap c) .invalidSegment
  /-- OUT of a value that is no byte. -/
  | out {c : RegIdx} (h : 255 < s.regs[c].toNat) : Raises s (.out c) .outputRangeViolation
  /-- LOADP of a segment other than 0 that is not live. -/
  | loadp {b c : RegIdx} (hb : s.regs[b] ≠ 0#32) (h : s.mem.live? s.regs[b] = none) :
      Raises s (.loadp b c) .invalidSegment

/-- An instruction that ends a running block's run in a fault raised it by one of the table's rows. -/
theorem exec_raises (hr : s.run = .running) (h : exec i s = .next t) (ht : t.run = .faulted cause) :
    Raises s i cause := by
  cases i with
  | cmov a b c =>
    obtain ⟨-, rfl⟩ | ⟨-, rfl⟩ := execCmov_inv h <;> simp [hr] at ht
  | sload a b c =>
    obtain ⟨w, -, rfl⟩ | ⟨cause', hm, rfl⟩ := execSload_inv h
    · simp [hr] at ht
    · obtain rfl : cause' = cause := by simpa using ht
      obtain ⟨hdead, rfl⟩ | ⟨g, hg, hlen, rfl⟩ := Memory.read_eq_error.mp hm
      · exact .sloadDead hdead
      · exact .sloadPast hg hlen
  | sstore a b c =>
    obtain ⟨m, -, rfl⟩ | ⟨cause', hm, rfl⟩ := execSstore_inv h
    · simp [hr] at ht
    · obtain rfl : cause' = cause := by simpa using ht
      obtain ⟨hdead, rfl⟩ | ⟨g, hg, hlen, rfl⟩ := Memory.write_eq_error.mp hm
      · exact .sstoreDead hdead
      · exact .sstorePast hg hlen
  | add a b c =>
    obtain rfl := aluWrite_inv (f := aluAdd) h
    simp [hr] at ht
  | mul a b c =>
    obtain rfl := aluWrite_inv (f := aluMul) h
    simp [hr] at ht
  | div a b c =>
    obtain ⟨-, rfl⟩ | ⟨hzero, rfl⟩ := execDiv_inv h
    · simp [hr] at ht
    · obtain rfl : Cause.divisionByZero = cause := by simpa using ht
      exact .div hzero
  | nand a b c =>
    obtain rfl := aluWrite_inv (f := aluNand) h
    simp [hr] at ht
  | halt =>
    obtain rfl := execHalt_inv h
    simp at ht
  | map b c =>
    obtain ⟨id, m, -, -, rfl⟩ | ⟨hcap, rfl⟩ | ⟨-, cause', hm, rfl⟩ := execMap_inv h
    · simp [hr] at ht
    · obtain rfl : Cause.resourceExhausted = cause := by simpa using ht
      exact .map (.inl hcap)
    · obtain rfl : cause' = cause := by simpa using ht
      obtain ⟨hq, hfull, rfl⟩ := Memory.alloc_eq_error.mp hm
      exact .map (.inr ⟨hq, hfull⟩)
  | unmap c =>
    obtain ⟨m, -, rfl⟩ | ⟨cause', hm, rfl⟩ := execUnmap_inv h
    · simp [hr] at ht
    · obtain rfl : cause' = cause := by simpa using ht
      obtain ⟨hfault, rfl⟩ := Memory.free_eq_error.mp hm
      exact .unmap hfault
  | out c =>
    obtain ⟨-, rfl⟩ | ⟨hlt, rfl⟩ := execOut_inv h
    · simp [hr] at ht
    · obtain rfl : Cause.outputRangeViolation = cause := by simpa using ht
      exact .out hlt
  | inp c =>
    obtain ⟨-, rfl⟩ | ⟨v, -, rfl⟩ | ⟨-, rfl⟩ := execInp_inv h <;> simp [hr] at ht
  | loadp b c =>
    obtain ⟨-, rfl⟩ | ⟨-, m, -, rfl⟩ | ⟨hb, cause', hm, rfl⟩ := execLoadp_inv h
    · simp [hr] at ht
    · simp [hr] at ht
    · obtain rfl : cause' = cause := by simpa using ht
      obtain ⟨-, hdead, rfl⟩ := Memory.load0_eq_error.mp hm
      exact .loadp hb hdead
  | loadv a imm =>
    obtain rfl := execLoadv_inv h
    simp [hr] at ht

/-- The whole table of R181: the fetch, the dispatch of an Invalid word, and the instructions' own rows. -/
inductive StepRaises (reject : Bool) (s : State) : Cause → Prop where
  /-- The fetch is past the end of segment 0. -/
  | fetch {g : Segment} (hg : s.mem.live? 0#32 = some g) (h : g.len ≤ s.pc.toNat) : StepRaises reject s .outOfBounds
  /-- The fetched word is Invalid. -/
  | dispatch {w : Word} (hf : s.fetch = .ok w) (hd : decode reject w = none) : StepRaises reject s .malformedProgram
  /-- The instruction at pc raises its fault. -/
  | instr {w : Word} {i : Instr} {cause : Cause} (hf : s.fetch = .ok w) (hd : decode reject w = some i)
      (h : Raises s i cause) : StepRaises reject s cause

/-- A step ends in a fault only by a row of the table. The invariant's live slot 0 is what keeps the fetch from raising
InvalidSegment (20_memory.md R43). -/
theorem stepWith_raises (hs : s.Inv) (h : stepWith reject s = .next t) (ht : t.run = .faulted cause) :
    StepRaises reject s cause := by
  obtain ⟨hr, ⟨cause', hf, rfl⟩ | ⟨w, hf, hd, rfl⟩ | ⟨w, i, hf, hd, he⟩⟩ := stepWith_inv h
  · obtain rfl : cause' = cause := by simpa using ht
    obtain ⟨g, hg⟩ := hs.mem.zeroLive
    have hlive : s.mem.live? 0#32 = some g := Memory.live?_eq_some.mpr hg
    obtain ⟨hdead, -⟩ | ⟨g', hg', hlen, rfl⟩ := Memory.read_eq_error.mp hf
    · simp [hlive] at hdead
    · exact .fetch hg' hlen
  · obtain rfl : Cause.malformedProgram = cause := by simpa using ht
    exact .dispatch hf hd
  · exact .instr hf hd (exec_raises hr he ht)

/-- Settles O45: each clause lists the rows of the table (`StepRaises`, `Raises`) that have its cause, and a fault comes
by one of the rows (`stepWith_raises`). -/
theorem faultCauses : Obligations.FaultCauses := by
  refine ⟨⟨rfl, rfl, rfl, rfl, rfl, rfl⟩, fun reject s t hs h => ?_⟩
  have hraises : ∀ {cause}, t.run = .faulted cause → StepRaises reject s cause := stepWith_raises hs h
  refine ⟨fun ht => ?_, fun ht => ?_, fun ht => ?_, fun ht => ?_, fun ht => ?_, fun ht => ?_⟩
  · cases hraises ht with
    | dispatch hf hd => exact ⟨_, hf, unassigned_or_reserved_of_decode_eq_none hd⟩
    | instr hf hd hrow => cases hrow
  · cases hraises ht with
    | instr hf hd hrow =>
      refine ⟨_, _, hf, hd, ?_⟩
      cases hrow with
      | sloadDead hdead => exact .inl ⟨_, _, _, rfl, hdead⟩
      | sstoreDead hdead => exact .inr (.inl ⟨_, _, _, rfl, hdead⟩)
      | unmap hfault => exact .inr (.inr (.inl ⟨_, rfl, hfault⟩))
      | loadp hb hdead => exact .inr (.inr (.inr ⟨_, _, rfl, hb, hdead⟩))
  · cases hraises ht with
    | fetch hg hlen => exact .inl ⟨_, hg, hlen⟩
    | instr hf hd hrow =>
      refine .inr ⟨_, _, hf, hd, ?_⟩
      cases hrow with
      | sloadPast hg hlen => exact .inl ⟨_, _, _, _, rfl, hg, hlen⟩
      | sstorePast hg hlen => exact .inr ⟨_, _, _, _, rfl, hg, hlen⟩
  · cases hraises ht with
    | instr hf hd hrow =>
      cases hrow with
      | div hzero => exact ⟨_, _, _, _, hf, hd, hzero⟩
  · cases hraises ht with
    | instr hf hd hrow =>
      cases hrow with
      | out hlt => exact ⟨_, _, hf, hd, hlt⟩
  · cases hraises ht with
    | instr hf hd hrow =>
      cases hrow with
      | map hrefused => exact ⟨_, _, _, hf, hd, hrefused⟩

/-! ### Faults are precise (R183) -/

/-- Settles O46: only a running block steps (`stepWith_inv`), and of the ways a step can leave the run state
(`stepWith_run`), the one to Faulted changes nothing else. -/
theorem faultsArePrecise : Obligations.FaultsArePrecise := by
  intro reject s t cause h ht
  refine ⟨(stepWith_inv h).1, ?_⟩
  obtain hrun | ⟨cause', rfl⟩ | ⟨-, rfl⟩ := stepWith_run h
  · simp [hrun] at ht
  · obtain rfl : cause' = cause := by simpa using ht
    rfl
  · simp at ht

/-! ### The terminal run states are final (R186, R192) -/

/-- What the host does to the input port is not seen in the observation of a run (40_execution_cycle.md R110). -/
@[simp] theorem observation_host (e : HostEvent) : (s.host e).observation = s.observation := by
  simp [State.observation]

/-- Settles O48: a state observed as the terminal one is not running, so it has no step (`stepWith_inv`), and the host's
acts keep the observation (`observation_host`). -/
theorem terminalStatesAreFinal : Obligations.TerminalStatesAreFinal := by
  intro reject s t hterminal hreach
  refine hreach.keeps (p := fun u => u.observation = s.observation) rfl (fun u v hu hstep => ?_) fun u e hu => ?_
  · have hrun : u.run = s.run := congrArg Observation.run hu
    exact absurd (hrun.symm.trans (stepWith_inv hstep).1) hterminal
  · exact (observation_host e).trans hu

end Sys2Proof.Machine
end

section
/-! PROOFS. Reset and hazards (70_reset_and_hazards.md): what reset leaves (R200), the loader's reading of a file (R201),
the empty program (R202), the load of one word, and self-modifying code (R205). -/

namespace Sys2Proof.Machine

/-! ### Reset (R200) -/

theorem regs_boot (image : List Word) (input : List Byte) (closed : Bool) (limits : List (List LengthRange))
    (k : RegIdx) : (State.boot image input closed limits).regs[k] = 0#32 :=
  Vector.getElem_replicate k.isLt

/-- Settles O50: reset is boot with the empty image (`reset_eq_boot`), and slot 0 of a booted machine holds the image
word for word (`Segment.ofWords_get`). -/
theorem resetState : Obligations.ResetState := by
  refine ⟨⟨regs_boot [] [] true [], rfl, rfl, rfl, rfl, rfl⟩, fun image input closed limits => ?_⟩
  refine ⟨regs_boot image input closed limits, rfl, rfl, rfl, rfl, rfl, rfl, .ofWords image, rfl, rfl, fun i hi => ?_⟩
  rw [Segment.ofWords_get, List.getElem?_eq_getElem hi, Option.getD_some]

/-- Settles O54: boot puts the image in slot 0 and nothing waits for reuse, which is `Memory.boot_inv`. -/
theorem bootMeetsInvariant : Obligations.BootMeetsInvariant :=
  fun image _ _ _ himage => ⟨Memory.boot_inv image himage⟩

/-! ### The program image of a file (R201) -/

theorem packWord_toNat (b0 b1 b2 b3 : Byte) : (packWord b0 b1 b2 b3).toNat =
    (b0.toNat <<< 24) + (b1.toNat <<< 16) + (b2.toNat <<< 8) + b3.toNat := by
  have h0 := b0.isLt
  have h1 := b1.isLt
  have h2 := b2.isLt
  have h3 := b3.isLt
  simp only [packWord, BitVec.toNat_ofNat, Nat.shiftLeft_eq]
  omega

/-- A word is the big-endian value of bytes 4k to 4k + 3 of a file. -/
def IsFileWord (f : List Byte) (k : Nat) (w : Word) : Prop :=
  ∃ b0 b1 b2 b3 : Byte, f[4 * k]? = some b0 ∧ f[4 * k + 1]? = some b1 ∧ f[4 * k + 2]? = some b2 ∧
    f[4 * k + 3]? = some b3 ∧ w.toNat = (b0.toNat <<< 24) + (b1.toNat <<< 16) + (b2.toNat <<< 8) + b3.toNat

section FileWord

variable {b0 b1 b2 b3 : Byte} {f : List Byte} {k : Nat} {w : Word}

theorem isFileWord_zero : IsFileWord (b0 :: b1 :: b2 :: b3 :: f) 0 (packWord b0 b1 b2 b3) :=
  ⟨b0, b1, b2, b3, rfl, rfl, rfl, rfl, packWord_toNat b0 b1 b2 b3⟩

/-- Four more bytes at the front of a file move its words up by one. -/
theorem IsFileWord.succ (h : IsFileWord f k w) : IsFileWord (b0 :: b1 :: b2 :: b3 :: f) (k + 1) w := h

end FileWord

/-- A file of whole words is read word by word. -/
theorem exists_imageOfBytes_eq_ok (f : List Byte) (h : f.length % 4 = 0) :
    ∃ p, imageOfBytes f = .ok p ∧ p.length = f.length / 4 ∧ ∀ k, (hk : k < p.length) → IsFileWord f k p[k] := by
  induction f using imageOfBytes.induct with
  | case1 => exact ⟨[], rfl, rfl, fun k hk => absurd hk (Nat.not_lt_zero k)⟩
  | case2 b0 b1 b2 b3 rest ih =>
    simp only [List.length_cons] at h ⊢
    obtain ⟨p, hp, hlen, hwords⟩ := ih (by omega)
    refine ⟨packWord b0 b1 b2 b3 :: p, by simp [imageOfBytes, hp, Except.map], ?_, fun k hk => ?_⟩
    · rw [List.length_cons]
      omega
    · cases k with
      | zero => exact isFileWord_zero
      | succ k => exact (hwords k (Nat.lt_of_succ_lt_succ hk)).succ
  | case3 b0 => simp at h
  | case4 b0 b1 => simp at h
  | case5 b0 b1 b2 => simp at h

/-- One to three bytes left over at the end of a file reject it. -/
theorem imageOfBytes_eq_malformedProgram (f : List Byte) (h : f.length % 4 ≠ 0) :
    imageOfBytes f = .error .malformedProgram := by
  induction f using imageOfBytes.induct with
  | case1 => simp at h
  | case2 b0 b1 b2 b3 rest ih =>
    simp only [List.length_cons] at h
    simp [imageOfBytes, ih (by omega), Except.map]
  | case3 b0 => rfl
  | case4 b0 b1 => rfl
  | case5 b0 b1 b2 => rfl

/-- Settles O51: both clauses follow the loader's recursion, four bytes at a time. -/
theorem loaderIsBigEndian : Obligations.LoaderIsBigEndian :=
  ⟨exists_imageOfBytes_eq_ok, imageOfBytes_eq_malformedProgram⟩

/-! ### The empty program (R202) -/

/-- Settles O52: slot 0 holds a segment of no words, so the fetch at pc 0 is past its end (`fetch_of_live`). -/
theorem emptyProgramFaults : Obligations.EmptyProgramFaults := by
  refine ⟨rfl, fun reject input closed limits => ⟨rfl, ?_⟩⟩
  have hfetch : (State.boot [] input closed limits).fetch = .error .outOfBounds :=
    (fetch_of_live rfl).trans (if_pos le_rfl)
  exact stepWith_of_fetch_error rfl hfetch

/-! ### The load of one word (log entry 7) -/

/-- After the loader's put, segment 0 is a well-formed segment, long enough, with the word put in it. -/
theorem Memory.exists_live?_loaderPut {m : Memory} (h : m.wf = true) (k : Nat) (v : Word) :
    ∃ g : Segment, g.wf = true ∧ k < g.len ∧ (m.loaderPut k v).live? 0#32 = some (g.put k v) := by
  have hg : ((m.live? 0#32).getD (.zeros 0)).wf = true := by
    cases hl : m.live? 0#32 with
    | none => rfl
    | some g => exact live_wf_of_wf h hl
  generalize hg0 : (m.live? 0#32).getD (.zeros 0) = g0 at hg
  refine ⟨{ g0 with len := max g0.len (k + 1) }, cellsWf_len_mono hg (Nat.le_max_left _ _), Nat.le_max_right _ _,
    live?_eq_some.mpr ?_⟩
  cases hs : m.slots with
  | nil => simp [loaderPut, hs, hg0]
  | cons slot slots => simp [loaderPut, hs, hg0]

theorem fetch_loadAtPc {s : State} (h : s.mem.wf = true) (w : Word) : (s.loadAtPc w).fetch = .ok w := by
  obtain ⟨g, hg, hlt, hlive⟩ := Memory.exists_live?_loaderPut h s.pc.toNat w
  refine (fetch_eq _).trans (Memory.read_eq_ok.mpr ⟨_, hlive, hlt, ?_⟩)
  exact ((Segment.get_put hg _ _ w).trans (if_pos rfl)).symm

theorem tableWord_eq_ofNat (w : Nat) : tableWord 32 w = BitVec.ofNat 32 w :=
  BitVec.eq_of_toNat_eq (by simp [tableWord])

/-- Settles O17: the fetch reads back the word loaded (`fetch_loadAtPc`), and the block has been set running. -/
theorem loadedWordRunsNext : Obligations.LoadedWordRunsNext := by
  intro s w i hwf hdecode
  have hfetch : (s.withFetchWord 32 w).fetch = .ok (tableWord 32 w) := fetch_loadAtPc hwf _
  exact ⟨tableWord_eq_ofNat w ▸ hfetch, stepWith_of_instrAt rfl (instrAt_eq_some.mpr ⟨_, hfetch, hdecode⟩)⟩

/-! ### Self-modifying code (R205) -/

/-- Settles O37: a completed SSTORE to the next address leaves the pc there, where its word is read back (`sstoreRule`);
a completed LOADP leaves segment 0 reading as the segment it copied (`Memory.read_load0_zero`). -/
theorem nextFetchSeesTheStore : Obligations.NextFetchSeesTheStore := by
  refine ⟨fun a b c s g hwf hg ha hb hlt => ?_, fun b c s g hb hg => ?_⟩
  · obtain ⟨-, hstore, -, -⟩ := sstoreRule
    obtain ⟨m, hexec, -, -, hread, -⟩ := hstore a b c s g hwf (by simpa [ha] using hg) hlt
    rw [ha, hb] at hread
    exact ⟨_, hexec, hread⟩
  · obtain ⟨-, -, hcopy, -⟩ := loadpRule
    have hload : s.mem.load0 s.regs[b] = .ok { s.mem with slots := s.mem.slots.set 0 (.live g) } :=
      Memory.load0_eq_ok.mpr (.inr ⟨hb, g, Memory.live?_eq_some.mpr hg, rfl⟩)
    exact ⟨_, hcopy b c s g hb hg, rfl, Memory.read_load0_zero hb hload s.regs[c]⟩

end Sys2Proof.Machine
end
